-- ==== Sys2Proof/Config.lean ====
section
/-! DEFINITION. The parameters the spec leaves open (00_scope.md R7) and the model's free values.
`NUMERIC_MODEL` is taken at the value R7 gives, `EXACT_REAL`; it is coded by `XReal.val` (Word.lean).
`NS` is no parameter: it is derived from CFG (R28). -/
namespace Sys2Proof.Config

/-- The noise oracle `NOISE` (R170, D17): the `n`-th Gaussian draw of the source whose seed carries the
label `seed`. A FREE VALUE: it has no body, so a claim about an AWGN command holds for every draw. -/
opaque noise (seed n : Nat) : ℝ

/-- The value of the `n`-th real that the host supplies and that no expression of `XReal` names. A FREE VALUE
(log 2): a claim over operands and configuration records that holds them holds for every real. -/
opaque hostReal (n : Nat) : ℝ

/-- `MAX_SEQ_LEN` by default (R7: OPEN, "the default is unbounded", D27): `none` is no limit. The limit in
force is the field `State.maxSeqLen`, so a claim over all states is a claim over all limits. -/
def defaultMaxSeqLen : Option Nat := none

end Sys2Proof.Config
end

