-- ==== Sys2Proof/Word.lean ====
section
/-! DEFINITION. The elements that operands, results and CFG are made of: bits, the 8-bit command word and
mode byte, and exact real numbers as plain data (00_scope.md R8, R9, R10; 30_encoding.md R63). -/
namespace Sys2Proof

/-- One element of a bit sequence, 0 (`false`) or 1 (`true`) by type (R8, D30). -/
abbrev Bit := Bool

/-- The command word OP (R61) and the byte MODE of a CFGREC (R64). -/
abbrev Byte := BitVec 8

/-- A real number as plain data: a finite expression over the operations the spec's formulas use (R10).
`XReal.val` says which real it is, and that real is all a command ever depends on (log 1). -/
inductive XReal where
  /-- A rational number. -/
  | rat (q : Rat)
  /-- The real constant π. -/
  | pi
  /-- The `n`-th real supplied by the host that has no expression: any real (`Config.hostReal`). -/
  | hostReal (n : Nat)
  /-- The `n`-th draw of the noise source with seed label `seed`: any real (`Config.noise`). -/
  | draw (seed n : Nat)
  | neg (a : XReal)
  | add (a b : XReal)
  | sub (a b : XReal)
  | mul (a b : XReal)
  /-- Exact division. The commands divide only by `FS > 0`, by a length `>= 1` and by a power of 10. -/
  | div (a b : XReal)
  | sin (a : XReal)
  | cos (a : XReal)
  /-- The square root. The commands take it of `N >= 0` only (R172). -/
  | sqrt (a : XReal)
  /-- `10^a` (R172). -/
  | pow10 (a : XReal)
deriving DecidableEq, Repr

/-- The exact real an expression denotes (`NUMERIC_MODEL = EXACT_REAL`: R7, R10, D4, D37). -/
noncomputable def XReal.val : XReal → ℝ
  | .rat q => (q : ℝ)
  | .pi => Real.pi
  | .hostReal n => Config.hostReal n
  | .draw seed n => Config.noise seed n
  | .neg a => -a.val
  | .add a b => a.val + b.val
  | .sub a b => a.val - b.val
  | .mul a b => a.val * b.val
  | .div a b => a.val / b.val
  | .sin a => Real.sin a.val
  | .cos a => Real.cos a.val
  | .sqrt a => Real.sqrt a.val
  | .pow10 a => (10 : ℝ) ^ a.val

/-- A complex sample: a pair of reals, real part first (R63). -/
structure Cplx where
  re : XReal
  im : XReal
deriving DecidableEq, Repr

/-- The complex number a pair denotes. -/
noncomputable def Cplx.val (z : Cplx) : ℂ := ⟨z.re.val, z.im.val⟩

end Sys2Proof
end

