-- ==== Sys2Proof/Syntax.lean ====
section
/-! DEFINITION. The command set (30_encoding.md): the nine commands, the operand kinds, the CONFIGURE record
and the command frame. A command has no immediate field (R65), so no constructor of `Instr` has an argument:
all data travels in the frame's operand. -/
namespace Sys2Proof

/-- The nine commands, one per row of the opcode map (R62; spec/opcode_table.json). -/
inductive Instr where
  | configure | hamEnc | hamDec | bpskMod | qpskMod | bpskDem | qpskDem | awgnR | awgnC
deriving DecidableEq, Repr

/-- The operand of CONFIGURE, format CFGREC (R64): the byte MODE, then four reals in this order. -/
structure CfgRec where
  mode : Byte
  fc : XReal
  fs : XReal
  tb : XReal
  snrDb : XReal
deriving DecidableEq, Repr

/-- The four operand kinds (R63). -/
inductive OperandKind where
  | bitSeq | realSeq | cplxSeq | cfgRec
deriving DecidableEq, Repr

/-- One operand, carried by value, element 0 of a sequence first (R40, R43). -/
inductive Operand where
  | bits (b : List Bit)
  | reals (x : List XReal)
  | cplx (z : List Cplx)
  | cfg (r : CfgRec)
deriving DecidableEq, Repr

/-- A command frame (R60): the command word and what came with it. A frame has exactly one operand; the
list also holds the malformed frames of R67 (no operand, more than one). -/
structure Frame where
  op : Byte
  operands : List Operand
deriving DecidableEq, Repr

end Sys2Proof
end

