-- ==== Sys2Proof/WellFormed.lean ====
section
/-! DEFINITION. Which operands a command's frame must carry (30_encoding.md R62, R63, R67). `Instr` itself has
no field that could be ill-formed (R65); a frame can be, and its meaning then raises IllegalCommand. -/
namespace Sys2Proof

/-- The kind of an operand (R63). -/
def Operand.kind : Operand → OperandKind
  | .bits _ => .bitSeq
  | .reals _ => .realSeq
  | .cplx _ => .cplxSeq
  | .cfg _ => .cfgRec

/-- The column 'operand' of the opcode map (R62). -/
def Instr.operandKind : Instr → OperandKind
  | .configure => .cfgRec
  | .hamEnc => .bitSeq
  | .hamDec => .bitSeq
  | .bpskMod => .bitSeq
  | .qpskMod => .bitSeq
  | .bpskDem => .realSeq
  | .qpskDem => .realSeq
  | .awgnR => .realSeq
  | .awgnC => .cplxSeq

/-- The column 'result' of the opcode map (R62); `none` for CONFIGURE. -/
def Instr.resultKind : Instr → Option OperandKind
  | .configure => none
  | .hamEnc => some .bitSeq
  | .hamDec => some .bitSeq
  | .bpskMod => some .realSeq
  | .qpskMod => some .realSeq
  | .bpskDem => some .bitSeq
  | .qpskDem => some .bitSeq
  | .awgnR => some .realSeq
  | .awgnC => some .cplxSeq

/-- The length of a sequence operand (R60: carried implicitly); a CFGREC is no sequence and has none. -/
def Operand.length : Operand → Nat
  | .bits b => b.length
  | .reals x => x.length
  | .cplx z => z.length
  | .cfg _ => 0

/-- The operand-shape check (R67): exactly one operand, of the kind the opcode fixes. -/
def Instr.operandsFit (i : Instr) : List Operand → Bool
  | [o] => o.kind == i.operandKind
  | _ => false

end Sys2Proof
end

