-- ==== Sys2Proof/Decode.lean ====
section
/-! DEFINITION. The decoder and the encoder of the command word (30_encoding.md R61, R62, R66, R68). -/
namespace Sys2Proof

/-- Why a command word is no command (R66): its CLASS is one of 5..15, or its FN is unassigned in its CLASS. -/
inductive Reserved where
  | reservedClass (cls : BitVec 4)
  | reservedFn (cls fn : BitVec 4)
deriving DecidableEq, Repr

/-- The field CLASS, bits 7:4 of the command word (R61). -/
def opClass (op : Byte) : BitVec 4 := op.extractLsb' 4 4

/-- The field FN, bits 3:0 of the command word (R61). -/
def opFn (op : Byte) : BitVec 4 := op.extractLsb' 0 4

/-- The opcode map (R62). Every value it does not assign is reserved and rejected by name (R66). The decode
depends on the command word alone (R68). -/
def decode (op : Byte) : Except Reserved Instr :=
  match (opClass op).toNat, (opFn op).toNat with
  | 0, 1 => .ok .configure
  | 1, 0 => .ok .hamEnc
  | 1, 1 => .ok .hamDec
  | 2, 0 => .ok .bpskMod
  | 2, 1 => .ok .qpskMod
  | 3, 0 => .ok .bpskDem
  | 3, 1 => .ok .qpskDem
  | 4, 0 => .ok .awgnR
  | 4, 1 => .ok .awgnC
  | cls, _ => if cls ≤ 4 then .error (.reservedFn (opClass op) (opFn op)) else .error (.reservedClass (opClass op))

/-- The command word of a command, the column OP of R62. -/
def encode : Instr → Byte
  | .configure => 0x01
  | .hamEnc => 0x10
  | .hamDec => 0x11
  | .bpskMod => 0x20
  | .qpskMod => 0x21
  | .bpskDem => 0x30
  | .qpskDem => 0x31
  | .awgnR => 0x40
  | .awgnC => 0x41

/-- The command the decoder reads from a command word of `nbits` bits. Every command word is exactly 8 bits
(R61), so any other width is no command word. -/
def decodeTableWord (nbits w : Nat) : Option Instr :=
  if nbits = 8 then (decode (BitVec.ofNat 8 w)).toOption else none

/-- The operand of a command with nothing in it: a sequence of length 0, or a record of zeros. -/
def zeroOperand : OperandKind → Operand
  | .bitSeq => .bits []
  | .realSeq => .reals []
  | .cplxSeq => .cplx []
  | .cfgRec => .cfg ⟨0, .rat 0, .rat 0, .rat 0, .rat 0⟩

/-- The frame whose command word is the low 8 bits of `w` and whose operand is empty or zero. -/
def frameOfTableWord (w : Nat) : Frame :=
  let op := BitVec.ofNat 8 w
  match decode op with
  | .ok i => ⟨op, [zeroOperand i.operandKind]⟩
  | .error _ => ⟨op, [.bits []]⟩

end Sys2Proof
end

