-- ==== Sys2Proof/Machine/State.lean ====
section
/-! DEFINITION. The state of the block and of its interface to the host, and the state after reset
(10_state.md). -/
namespace Sys2Proof.Machine

/-- The configuration register CFG (R23): the six written fields. `NS` is derived from them (R28). -/
structure Cfg where
  /-- `CFG.SCHEME`, 2 bits: 0 BPSK, 1 QPSK (R24). -/
  scheme : BitVec 2
  /-- `CFG.ECC_EN`, 1 bit (R25). -/
  eccEn : Bool
  /-- `CFG.FC`, carrier frequency (R26). -/
  fc : XReal
  /-- `CFG.FS`, sample rate (R26). -/
  fs : XReal
  /-- `CFG.TB`, bit duration (R26). -/
  tb : XReal
  /-- `CFG.SNR_DB` (R27). -/
  snrDb : XReal
deriving DecidableEq, Repr

/-- What the host can read of CFG: its six fields and the derived `NS` (R23, R28, R38). -/
inductive CfgReg where
  | scheme | eccEn | fc | fs | tb | snrDb | ns
deriving DecidableEq, Repr

/-- What the host does at the block's interface (R20, R38, R250). DESIGN CHOICE (log 20): no request establishes the
seed of the noise source. R252 leaves that boot step to the open parameter `NOISE_SEED` and gives no command for it. -/
inductive Request where
  /-- Issue a command frame and wait for its completion (R60, R253). -/
  | command (f : Frame)
  /-- Issue a command frame and assert reset before it completes (R250, I9). -/
  | commandThenReset (f : Frame)
  /-- Assert reset between commands (R250). -/
  | reset
  /-- Read STATUS (R38). -/
  | readStatus
  /-- Read a CFG field or `NS` (R38). -/
  | readCfg (r : CfgReg)
deriving DecidableEq, Repr

/-- What the block hands to the host: a command's result sequence (R60) or the value of a register read (R38). -/
inductive Reply where
  | bits (b : List Bit)
  | reals (x : List XReal)
  | cplx (z : List Cplx)
  /-- The value of STATUS. -/
  | status (v : Byte)
  /-- The value of `CFG.SCHEME`. -/
  | scheme (v : BitVec 2)
  /-- The value of `CFG.ECC_EN`. -/
  | eccEn (v : Bool)
  /-- The value of `CFG.FC`, `CFG.FS`, `CFG.TB` or `CFG.SNR_DB`. -/
  | real (v : XReal)
  /-- The value of `NS`. -/
  | ns (v : Nat)
deriving DecidableEq, Repr

/-- The state of the block (R20 to R39) with its host interface. STATUS is not stored whole: its bits 2:0 are
`err`, bit 3 (CFGD) is whether `cfg` holds a value, bit 4 is `sticky`, and bits 7:5 read as 0 (`State.status`). -/
structure State where
  /-- CFG. `none` is the spec's own unset state, in which CFGD is 0 and no field holds a value (R29, R39). -/
  cfg : Option Cfg
  /-- `STATUS.ERR` (R31). -/
  err : BitVec 3
  /-- `STATUS.STICKY` (R32). -/
  sticky : Bool
  /-- The label of the noise source's seed, `NOISE_SEED` (R33). It says nothing of the seed's value. -/
  noiseSeed : Nat
  /-- How many draws the noise source has given since the last reset (R170, R175). -/
  drawsTaken : Nat
  /-- The parameter `MAX_SEQ_LEN` of this instance; `none` is unbounded (R7). No request writes it. -/
  maxSeqLen : Option Nat
  /-- The command in execution, with its operands (R39 'command in progress'); `none` between commands. -/
  current : Option Frame
  /-- What the host has yet to do at the interface, in its order: its program (R22). -/
  requests : List Request
  /-- What the block handed to the host on the last request it served; `none` if that gave nothing. -/
  reply : Option Reply
deriving DecidableEq, Repr

/-- A stop of the model where the spec gives no value. -/
inductive Fault where
  /-- Raised by a host read of a CFG field or of `NS` while CFGD = 0 (R38, I5). Safe: the spec gives no value
  and says that a model faults. -/
  | cfgUnset (r : CfgReg)
  /-- Raised by the reference host only, never by the block: the BER of two empty sequences (R191, R202, I7).
  Safe: the spec calls it undefined and says that a model faults. -/
  | berUndefined
deriving DecidableEq, Repr

/-- A stop of the model that the spec asks for. -/
inductive Refusal where
  /-- For an arm of `exec` whose command has no meaning yet. Safe: no command reaches it, every arm has one. -/
  | notModelled (mnemonic : String)
  /-- Raised at step 2 of the command cycle for an operand longer than `MAX_SEQ_LEN` (R80, I6). Safe: the spec
  says that the model refuses the command and gives no error code. -/
  | operandTooLong (len : Nat)
  /-- Raised at completion for a result longer than `MAX_SEQ_LEN` (R7, I6). Safe, for the same reason. -/
  | resultTooLong (len : Nat)
deriving DecidableEq, Repr

/-- What a request or a command answers. -/
abbrev Out := Host.Outcome State Fault Refusal

/-- The block right after reset (R39, R250). -/
def State.reset : State where
  cfg := none
  err := 0
  sticky := false
  noiseSeed := 0          -- log 3: a label only, the seed itself is OPEN (R33)
  drawsTaken := 0
  maxSeqLen := Config.defaultMaxSeqLen
  current := none
  requests := []
  reply := none

end Sys2Proof.Machine
end

