-- ==== Sys2Proof/Machine/Flags.lean ====
section
/-! DEFINITION. The error codes and the register STATUS (10_state.md R29 to R32; 60_exceptions.md R220). STATUS
holds the only flags of the block (R35). -/
namespace Sys2Proof.Machine

/-- The named outcomes of a command (R220). `lengthMismatch` is the reference host's; the block never writes it. -/
inductive ErrCode where
  | ok | invalidArgument | invalidLength | lengthMismatch | illegalCommand | notConfigured
deriving DecidableEq, Repr

/-- The 3-bit code of an outcome (R220). The values 6 and 7 are never written. -/
def ErrCode.code : ErrCode → BitVec 3
  | .ok => 0
  | .invalidArgument => 1
  | .invalidLength => 2
  | .lengthMismatch => 3
  | .illegalCommand => 4
  | .notConfigured => 5

/-- `CFGD`: whether some CONFIGURE has succeeded since reset (R29), that is, whether CFG holds values. -/
def State.cfgd (s : State) : Bool := s.cfg.isSome

/-- The register STATUS as the host reads it (R30): ERR in bits 2:0, CFGD in bit 3, STICKY in bit 4, and
bits 7:5 always 0. -/
def State.status (s : State) : Byte :=
  (0#3 ++ BitVec.ofBool s.sticky ++ BitVec.ofBool s.cfgd ++ s.err : BitVec 8)

end Sys2Proof.Machine
end

