-- ==== Sys2Proof/Machine/ExactReal.lean ====
section
/-! DEFINITION. Exact comparison and exact truncation of reals (00_scope.md R10: comparisons are "exact
comparisons of the real value"; `floor(x)` is the greatest integer `<= x`).

What the two operations answer is fixed by `XReal.val` alone: `XReal.isPos_iff` and `XReal.floorNat_eq`
(Laws/ExactReal.lean). An expression whose value lies in ℚ(√2), or is a rational multiple of π, is evaluated,
so that the kernel can run a command on it; for every other expression the answer comes from `decidePos` and
`floorOracle`, whose types admit no answer but the true one (log 4). -/
namespace Sys2Proof

/-- A value the evaluator can name: `a + b·√2`, or `q·π`. -/
inductive Exact where
  | surd (a b : Rat)
  | piMul (q : Rat)
deriving DecidableEq, Repr

/-- The real an `Exact` names. -/
noncomputable def Exact.val : Exact → ℝ
  | .surd a b => a + b * Real.sqrt 2
  | .piMul q => q * Real.pi

/-- `q·π`, named as the rational 0 where `q = 0`. -/
def Exact.ofPi (q : Rat) : Exact := if q = 0 then .surd 0 0 else .piMul q

def Exact.neg : Exact → Exact
  | .surd a b => .surd (-a) (-b)
  | .piMul q => .piMul (-q)

def Exact.add : Exact → Exact → Option Exact
  | .surd a b, .surd c d => some (.surd (a + c) (b + d))
  | .piMul p, .piMul q => some (.ofPi (p + q))
  | .surd a b, .piMul q => if a = 0 ∧ b = 0 then some (.piMul q) else none
  | .piMul q, .surd a b => if a = 0 ∧ b = 0 then some (.piMul q) else none

def Exact.mul : Exact → Exact → Option Exact
  | .surd a b, .surd c d => some (.surd (a * c + 2 * (b * d)) (a * d + b * c))
  | .surd a b, .piMul q => if b = 0 then some (.ofPi (a * q)) else none
  | .piMul q, .surd a b => if b = 0 then some (.ofPi (a * q)) else none
  | .piMul _, .piMul _ => none

/-- The quotient, by the conjugate `c - d·√2` of a divisor `c + d·√2`; `none` for a divisor 0. -/
def Exact.div : Exact → Exact → Option Exact
  | x, .surd c d =>
    let n := c * c - 2 * (d * d)
    if n = 0 then none else x.mul (.surd (c / n) (-(d / n)))
  | .piMul p, .piMul q => if q = 0 then none else some (.surd (p / q) 0)
  | .surd _ _, .piMul _ => none

/-- `sin (k·π/4)`. -/
def Exact.sinOctant (k : Int) : Exact :=
  match (k % 8).toNat with
  | 0 => .surd 0 0
  | 1 => .surd 0 (1 / 2)
  | 2 => .surd 1 0
  | 3 => .surd 0 (1 / 2)
  | 4 => .surd 0 0
  | 5 => .surd 0 (-1 / 2)
  | 6 => .surd (-1) 0
  | _ => .surd 0 (-1 / 2)

/-- The `k` with `x = k·π/4`, where there is one. -/
def Exact.octant? : Exact → Option Int
  | .surd a b => if a = 0 ∧ b = 0 then some 0 else none
  | .piMul q => if (4 * q).den = 1 then some (4 * q).num else none

def Exact.sin (x : Exact) : Option Exact := x.octant?.map sinOctant

def Exact.cos (x : Exact) : Option Exact := x.octant?.map fun k => sinOctant (k + 2)

/-- The rational square root of `q`, where there is one. -/
def Exact.ratSqrt? (q : Rat) : Option Rat :=
  if q < 0 then none
  else
    let r : Rat := (Nat.sqrt q.num.toNat : Rat) / (Nat.sqrt q.den : Rat)
    if r * r = q then some r else none

/-- The square root of a rational `q` where `q` or `q/2` is a rational square. -/
def Exact.sqrt : Exact → Option Exact
  | .surd a b =>
    if b = 0 then
      match ratSqrt? a with
      | some r => some (.surd r 0)
      | none => (ratSqrt? (a / 2)).map fun r => .surd 0 r
    else none
  | .piMul _ => none

/-- `10^k` for an integer `k`. The bound keeps an evaluation in the kernel small. -/
def Exact.pow10 : Exact → Option Exact
  | .surd a b =>
    if b = 0 ∧ a.den = 1 ∧ a.num.natAbs ≤ 1000 then
      let p : Rat := ((10 ^ a.num.natAbs : Nat) : Rat)
      some (.surd (if 0 ≤ a.num then p else 1 / p) 0)
    else none
  | .piMul _ => none

/-- Whether the value is `> 0`: the sign of `a + b·√2`, or of `q`. -/
def Exact.isPos : Exact → Bool
  | .surd a b =>
    if 0 ≤ a then
      if 0 ≤ b then decide (0 < a ∨ 0 < b) else decide (2 * (b * b) < a * a)
    else
      if 0 ≤ b then decide (a * a < 2 * (b * b)) else false
  | .piMul q => decide (0 < q)

/-- The value of an expression, where it is one that `Exact` can name; always right where it is named
(`XReal.exact?_sound`). A free value is never named; a product with 0 is. -/
def XReal.exact? : XReal → Option Exact
  | .rat q => some (.surd q 0)
  | .pi => some (.piMul 1)
  | .hostReal _ => none
  | .draw _ _ => none
  | .neg a => a.exact?.map Exact.neg
  | .add a b => a.exact?.bind fun x => b.exact?.bind fun y => x.add y
  | .sub a b => a.exact?.bind fun x => b.exact?.bind fun y => x.add y.neg
  | .mul a b =>
    match a.exact?, b.exact? with
    | some x, some y => x.mul y
    | some x, none => if x = .surd 0 0 then some x else none
    | none, some y => if y = .surd 0 0 then some y else none
    | none, none => none
  | .div a b => a.exact?.bind fun x => b.exact?.bind fun y => x.div y
  | .sin a => a.exact?.bind Exact.sin
  | .cos a => a.exact?.bind Exact.cos
  | .sqrt a => a.exact?.bind Exact.sqrt
  | .pow10 a => a.exact?.bind Exact.pow10

/-- The expression that spells a named value. -/
def Exact.toXReal : Exact → XReal
  | .surd a b =>
    if b = 0 then .rat a
    else if a = 0 then .mul (.rat b) (.sqrt (.rat 2))
    else .add (.rat a) (.mul (.rat b) (.sqrt (.rat 2)))
  | .piMul q => .mul (.rat q) .pi

/-- The same real, with every part whose value can be named spelled the one way `Exact.toXReal` spells it
(`XReal.norm_val`). The block delivers its reals so, which lets two results be compared as data (log 1). -/
def XReal.norm (e : XReal) : XReal :=
  match e.exact? with
  | some x => x.toXReal
  | none =>
    match e with
    | .rat q => .rat q
    | .pi => .pi
    | .hostReal n => .hostReal n
    | .draw s n => .draw s n
    | .neg a => .neg a.norm
    | .add a b => .add a.norm b.norm
    | .sub a b => .sub a.norm b.norm
    | .mul a b => .mul a.norm b.norm
    | .div a b => .div a.norm b.norm
    | .sin a => .sin a.norm
    | .cos a => .cos a.norm
    | .sqrt a => .sqrt a.norm
    | .pow10 a => .pow10 a.norm

/-- Both parts of a complex sample, spelled as `XReal.norm` spells them. -/
def Cplx.norm (z : Cplx) : Cplx := ⟨z.re.norm, z.im.norm⟩

/-- Decides `0 < x` for an expression outside the evaluator's reach. No program decides the sign of every
exact real, so the definition gives no method; its TYPE says that the answer is the truth, and `Decidable` of
a proposition has no second element. -/
def decidePos (x : XReal) : Decidable (0 < x.val) := decidePos x
partial_fixpoint

/-- The floor of an expression outside the evaluator's reach, as a natural number. As for `decidePos`, the
type leaves one answer. -/
def floorOracle (x : XReal) : { n : Nat // n = ⌊x.val⌋₊ } := floorOracle x
partial_fixpoint

/-- `x > 0`, compared exactly (R10). -/
def XReal.isPos (x : XReal) : Bool :=
  match x.exact? with
  | some v => v.isPos
  | none => (decidePos x).decide

/-- `x < 0`, compared exactly (R10). -/
def XReal.isNeg (x : XReal) : Bool := x.neg.isPos

/-- `floor(x)` as a natural number (R10, R28); 0 for a negative `x`. -/
def XReal.floorNat (x : XReal) : Nat :=
  match x.exact? with
  | some (.surd a b) => if b = 0 then a.floor.toNat else (floorOracle x).val
  | _ => (floorOracle x).val

/-- The sum of a sequence of reals. -/
def XReal.sum : List XReal → XReal
  | [] => .rat 0
  | a :: as => .add a (XReal.sum as)

/-- A natural number as a real. -/
def XReal.ofNat (n : Nat) : XReal := .rat n

end Sys2Proof
end

