-- ==== Sys2Proof/Machine/Operands.lean ====
section
/-! DEFINITION. The operand of the command in execution, the fields of a CFGREC and the derived register `NS`
(30_encoding.md R60, R63, R64, R65; 10_state.md R28). -/
namespace Sys2Proof.Machine

/-- The operands that came with the command in execution (R60). -/
def State.operands (s : State) : List Operand :=
  match s.current with
  | some f => f.operands
  | none => []

/-- The block accepts a command frame (R80): it is now the command in execution, and nothing has been
delivered for it yet. -/
def State.accept (s : State) (f : Frame) : State := { s with current := some f, reply := none }

/-- `MODE[1:0]` of a CFGREC, the code SCHEME (R64). -/
def schemeField (mode : Byte) : BitVec 2 := mode.extractLsb' 0 2

/-- `MODE[2]` of a CFGREC, the flag ECC_EN (R64). -/
def eccField (mode : Byte) : Bool := mode.getLsbD 2

/-- `MODE[7:3]` of a CFGREC, reserved (R64). -/
def reservedField (mode : Byte) : BitVec 5 := mode.extractLsb' 3 5

/-- `NS = floor(TB * FS)` (R28). -/
def samplesPerSymbol (tb fs : XReal) : Nat := (tb.mul fs).floorNat

/-- The read-only register `NS` of a configuration (R28): derived, never stored. -/
def Cfg.ns (c : Cfg) : Nat := samplesPerSymbol c.tb c.fs

/-- The checks of CONFIGURE (R81; 'legal values' of R64). Any real is a legal SNR_DB (R27). -/
def cfgRecLegal (r : CfgRec) : Bool :=
  reservedField r.mode == 0 &&
  decide ((schemeField r.mode).toNat ≤ 1) &&
  r.fc.isPos && r.fs.isPos && r.tb.isPos &&
  decide (1 ≤ samplesPerSymbol r.tb r.fs)

/-- The six fields that a CFGREC gives CFG (R81). -/
def cfgOfRec (r : CfgRec) : Cfg :=
  { scheme := schemeField r.mode, eccEn := eccField r.mode, fc := r.fc, fs := r.fs, tb := r.tb, snrDb := r.snrDb }

end Sys2Proof.Machine
end

