-- ==== Sys2Proof/Machine/Ops.lean ====
section
/-! DEFINITION. The shared operations of the command cycle (40_control.md R80, R82; 60_exceptions.md R222), the
noise source (43_awgn.md R170, R175) and reset (70_reset_and_hazards.md R250). The block has no trap entry and no
return from one (R224, R225): its exceptions are the errors that `State.raise` records. -/
namespace Sys2Proof.Machine

/-- `raise E` (R222): the command ends with its code in STATUS.ERR and with STICKY set, delivers no result and
changes nothing else. No handler runs (R224); the next command is accepted in the normal way (R225). -/
def State.raise (s : State) (e : ErrCode) : State :=
  { s with err := e.code, sticky := true, current := none, reply := none }

/-- Step 5 of the command cycle (R80): ERR becomes OK, STICKY is unchanged (R32), and the result, if the command
has one, goes to the host. -/
def State.complete (s : State) (r : Option Reply) : State :=
  { s with err := ErrCode.ok.code, current := none, reply := r }

/-- A command that ends in an error. -/
def raised (s : State) (e : ErrCode) : Out := .next (s.raise e)

/-- Whether a sequence is longer than the limit in force (R7, R63). -/
def State.tooLong (s : State) (len : Nat) : Bool :=
  match s.maxSeqLen with
  | none => false
  | some m => decide (m < len)

/-- Completion with a bit sequence; refused where it is longer than `MAX_SEQ_LEN` (I6). -/
def deliverBits (s : State) (b : List Bit) : Out :=
  if s.tooLong b.length then .refused (.resultTooLong b.length) else .next (s.complete (some (.bits b)))

/-- Completion with a sequence of reals. -/
def deliverReals (s : State) (x : List XReal) : Out :=
  if s.tooLong x.length then .refused (.resultTooLong x.length)
  else .next (s.complete (some (.reals (x.map XReal.norm))))

/-- Completion with a sequence of complex values. -/
def deliverCplx (s : State) (z : List Cplx) : Out :=
  if s.tooLong z.length then .refused (.resultTooLong z.length)
  else .next (s.complete (some (.cplx (z.map Cplx.norm))))

/-- Step 2 of the command cycle (R80) for a command whose operand is a BITSEQ: a frame of any other shape is
malformed (R67); an operand over `MAX_SEQ_LEN` is refused. -/
def withBits (s : State) (body : List Bit → Out) : Out :=
  match s.operands with
  | [.bits b] => if s.tooLong b.length then .refused (.operandTooLong b.length) else body b
  | _ => raised s .illegalCommand

/-- Step 2 for a command whose operand is a REALSEQ. -/
def withReals (s : State) (body : List XReal → Out) : Out :=
  match s.operands with
  | [.reals x] => if s.tooLong x.length then .refused (.operandTooLong x.length) else body x
  | _ => raised s .illegalCommand

/-- Step 2 for a command whose operand is a CPLXSEQ. -/
def withCplx (s : State) (body : List Cplx → Out) : Out :=
  match s.operands with
  | [.cplx z] => if s.tooLong z.length then .refused (.operandTooLong z.length) else body z
  | _ => raised s .illegalCommand

/-- Step 2 for CONFIGURE, whose operand is a CFGREC. -/
def withCfgRec (s : State) (body : CfgRec → Out) : Out :=
  match s.operands with
  | [.cfg r] => body r
  | _ => raised s .illegalCommand

/-- Step 3 of the command cycle (R80, R82): a command that reads CFG raises NotConfigured while CFGD = 0. -/
def withCfg (s : State) (body : Cfg → Out) : Out :=
  match s.cfg with
  | some c => body c
  | none => raised s .notConfigured

/-- The next `k` values of the noise oracle, `draw_normal(k)` (R170): each is a free value. -/
def State.draws (s : State) (k : Nat) : List XReal :=
  (List.range k).map fun n => .draw s.noiseSeed (s.drawsTaken + n)

/-- The noise source after `k` draws: the next draw is a fresh one (R177). -/
def State.takeDraws (s : State) (k : Nat) : State := { s with drawsTaken := s.drawsTaken + k }

/-- The host asserts reset (R250): every piece of state takes its reset value, a command in execution is
discarded, and the seed of the noise source is again unspecified, so it takes a label not used before it.
`MAX_SEQ_LEN` is a parameter and what the host has yet to do is the host's; reset touches neither. -/
def State.assertReset (s : State) : State :=
  { State.reset with
    noiseSeed := s.noiseSeed + 1, maxSeqLen := s.maxSeqLen, requests := s.requests }

/-- A host read of STATUS (R38): it has no side effect on the block. -/
def State.readStatus (s : State) : State := { s with reply := some (.status s.status) }

/-- The value of a register of CFG (R23, R28). -/
def cfgRegValue (c : Cfg) : CfgReg → Reply
  | .scheme => .scheme c.scheme
  | .eccEn => .eccEn c.eccEn
  | .fc => .real c.fc
  | .fs => .real c.fs
  | .tb => .real c.tb
  | .snrDb => .real c.snrDb
  | .ns => .ns c.ns

/-- A host read of a CFG field or of `NS` (R38): it has no side effect on the block, and faults while CFGD = 0
(I5). -/
def readCfg (s : State) (r : CfgReg) : Out :=
  match s.cfg with
  | some c => .next { s with reply := some (cfgRegValue c r) }
  | none => .fault (.cfgUnset r)

end Sys2Proof.Machine
end

