-- ==== Sys2Proof/Machine/Channel.lean ====
section
/-! DEFINITION. The channel model: the AWGN noise generator (43_awgn.md). -/
namespace Sys2Proof.Machine

/-- `mean(v)` of a non-empty sequence (R10). -/
def meanOf (v : List XReal) : XReal := (XReal.sum v).div (XReal.ofNat v.length)

/-- `|x[n]|²` of a real sample (R171). -/
def realPower (a : XReal) : XReal := a.mul a

/-- `|x[n]|²` of a complex sample (R171). -/
def cplxPower (z : Cplx) : XReal := (z.re.mul z.re).add (z.im.mul z.im)

/-- The noise power `N = P / 10^(SNR_DB/10)` for the signal power `P` (R172). -/
def noisePower (c : Cfg) (p : XReal) : XReal := p.div (c.snrDb.div (.rat 10)).pow10

/-- AWGN_R on a sample sequence with the draws `g`, `g[n]` for sample `n` (R173, R175): `x[n] + sqrt(N)·g[n]`,
with the signal power taken over the whole operand. An empty operand gives an empty result (D16). -/
def awgnReal (c : Cfg) (x g : List XReal) : List XReal :=
  let scale := (noisePower c (meanOf (x.map realPower))).sqrt
  List.zipWith (fun a d => a.add (scale.mul d)) x g

/-- AWGN_C on a complex sequence with the draws `g` for the real and `h` for the imaginary parts (R174, R175),
each scaled by `sqrt(N/2)`. -/
def awgnCplx (c : Cfg) (z : List Cplx) (g h : List XReal) : List Cplx :=
  let scale := ((noisePower c (meanOf (z.map cplxPower))).div (.rat 2)).sqrt
  List.zipWith (fun a d => Cplx.mk (a.re.add (scale.mul d.1)) (a.im.add (scale.mul d.2))) z (g.zip h)

/-- AWGN_R (R173): takes `len(x)` draws (R175). It raises no error of its own (R178). -/
def execAwgnR (s : State) : Out :=
  withReals s fun x => withCfg s fun c =>
    deliverReals (s.takeDraws x.length) (awgnReal c x (s.draws x.length))

/-- AWGN_C (R174): takes `2·len(z)` draws, the real parts' first (R175). -/
def execAwgnC (s : State) : Out :=
  withCplx s fun z => withCfg s fun c =>
    deliverCplx (s.takeDraws (2 * z.length))
      (awgnCplx c z (s.draws z.length) ((s.takeDraws z.length).draws z.length))

end Sys2Proof.Machine
end

