-- ==== Sys2Proof/Machine/Control.lean ====
section
/-! DEFINITION. The control command CONFIGURE (40_control.md). -/
namespace Sys2Proof.Machine

/-- CONFIGURE (R81): writes all six fields of CFG together, or raises InvalidArgument and changes none. -/
def execConfigure (s : State) : Out :=
  withCfgRec s fun r =>
    if cfgRecLegal r then .next ({ s with cfg := some (cfgOfRec r) }.complete none)
    else raised s .invalidArgument

end Sys2Proof.Machine
end

