-- ==== Sys2Proof/Machine/Hamming.lean ====
section
/-! DEFINITION. The channel coder: the systematic (7,4) Hamming code (41_hamming.md). The constant tables G and H
are read-only and reset does not affect them (10_state.md R34). -/
namespace Sys2Proof.Machine

/-- The generator matrix G, one list a row (R100). -/
def genMatrix : List (List Bit) :=
  [ [true, false, false, false, true, true, false],
    [false, true, false, false, true, false, true],
    [false, false, true, false, false, true, true],
    [false, false, false, true, true, true, true] ]

/-- The parity-check matrix H, one list a row; row 1 gives the most significant syndrome bit (R102). -/
def chkMatrix : List (List Bit) :=
  [ [true, true, false, true, true, false, false],
    [true, false, true, true, false, true, false],
    [false, true, true, true, false, false, true] ]

/-- The dot product over GF(2): the exclusive-or of the products (R10). -/
def dotGF2 (u v : List Bit) : Bit := (List.zipWith (· && ·) u v).foldr xor false

/-- A row vector times a matrix over GF(2), `(v · A) mod 2` (R10): the exclusive-or of the rows of `A` that `v`
selects. `width` is the number of columns. -/
def vecMatGF2 (width : Nat) (v : List Bit) (rows : List (List Bit)) : List Bit :=
  (List.zipWith (fun b row => row.map (b && ·)) v rows).foldr (List.zipWith xor) (List.replicate width false)

/-- A matrix times a column vector over GF(2), `(A · vᵀ) mod 2` (R10). -/
def matVecGF2 (rows : List (List Bit)) (v : List Bit) : List Bit := rows.map (dotGF2 · v)

/-- A sequence of bits read as an unsigned integer, most significant bit first (R9). -/
def natOfBits (b : List Bit) : Nat := b.foldl (fun n x => 2 * n + x.toNat) 0

/-- The codeword of a message block, `c = (m · G) mod 2` (R100). -/
def codeword (m : List Bit) : List Bit := vecMatGF2 7 m genMatrix

/-- The syndrome value `sv = 4*s1 + 2*s2 + s3` of a received block (R103). -/
def syndrome (r : List Bit) : Nat := natOfBits (matVecGF2 chkMatrix r)

/-- `pos(sv)` (R104): the 1-based position whose column of H has the value `sv`; `none` for `sv = 0`. -/
def errorPos : Nat → Option Nat
  | 1 => some 7
  | 2 => some 6
  | 3 => some 3
  | 4 => some 5
  | 5 => some 2
  | 6 => some 1
  | 7 => some 4
  | _ => none

/-- The received block with the bit that its syndrome selects flipped (R104, R106). -/
def correctBlock (r : List Bit) : List Bit :=
  match errorPos (syndrome r) with
  | some p => r.modify (p - 1) (!·)
  | none => r

/-- The message of a received block: the first four bits of the corrected block (R106). -/
def decodeBlock (r : List Bit) : List Bit := (correctBlock r).take 4

/-- HAM_ENC on a sequence of 4-bit blocks (R105); the codewords stand in block order. -/
def hamEncode : List Bit → List Bit
  | m0 :: m1 :: m2 :: m3 :: rest => codeword [m0, m1, m2, m3] ++ hamEncode rest
  | _ => []

/-- HAM_DEC on a sequence of 7-bit blocks (R106); every block is decoded independently. -/
def hamDecode : List Bit → List Bit
  | r0 :: r1 :: r2 :: r3 :: r4 :: r5 :: r6 :: rest => decodeBlock [r0, r1, r2, r3, r4, r5, r6] ++ hamDecode rest
  | _ => []

/-- HAM_ENC (R105). It reads no CFG field and runs in either state of CFGD (R82). -/
def execHamEnc (s : State) : Out :=
  withBits s fun b =>
    if b.length % 4 = 0 then deliverBits s (hamEncode b) else raised s .invalidLength

/-- HAM_DEC (R106). It reports neither a syndrome nor a correction, and no error for wrong bits (R107). -/
def execHamDec (s : State) : Out :=
  withBits s fun b =>
    if b.length % 7 = 0 then deliverBits s (hamDecode b) else raised s .invalidLength

end Sys2Proof.Machine
end

