-- ==== Sys2Proof/Machine/Modem.lean ====
section
/-! DEFINITION. The modulator and the correlation demodulator, BPSK and QPSK (42_modem.md). The opcode names the
scheme: no command reads CFG.SCHEME (R24). -/
namespace Sys2Proof.Machine

/-- `t_n = n / FS`, the time of sample `n` of a whole output buffer, and of sample `n` of a reference (R131, R132). -/
def sampleTime (c : Cfg) (n : Nat) : XReal := (XReal.ofNat n).div c.fs

/-- `2π f_c t_n`, the argument of the carrier at sample `n`. -/
def carrierArg (c : Cfg) (n : Nat) : XReal := (((XReal.rat 2).mul .pi).mul c.fc).mul (sampleTime c n)

/-- `refI[k]`, the in-phase reference (R132); also `I(t)` and the BPSK carrier at sample `k` (R133, R136). -/
def refI (c : Cfg) (k : Nat) : XReal := (carrierArg c k).sin

/-- `refQ[k]`, the quadrature reference (R132); also `Q(t)` at sample `k` (R136). -/
def refQ (c : Cfg) (k : Nat) : XReal := (carrierArg c k).cos

/-- `corr(x, j, ref)`: the dot product of symbol window `j` of `x` with a reference whose phase is reset at the
start of the window (R132). -/
def corr (c : Cfg) (x : List XReal) (j : Nat) (ref : Cfg → Nat → XReal) : XReal :=
  XReal.sum ((List.range c.ns).map fun k => (x.getD (j * c.ns + k) (.rat 0)).mul (ref c k))

/-- One sample of BPSK_MOD (R133): the carrier for a 1, its negation for a 0. -/
def bpskSample (c : Cfg) (b : Bit) (n : Nat) : XReal := (XReal.rat (if b then 1 else -1)).mul (refI c n)

/-- Symbol windows one after another on one shared time axis (R131): symbol `j` gives the samples
`j*NS + k` for `k = 0 .. NS-1`; `j` counts from the first symbol of the list. -/
def modulateFrom {σ : Type} (c : Cfg) (sample : σ → Nat → XReal) : Nat → List σ → List XReal
  | _, [] => []
  | j, a :: as => (List.range c.ns).map (fun k => sample a (j * c.ns + k)) ++ modulateFrom c sample (j + 1) as

/-- BPSK_MOD on a bit sequence (R133). -/
def bpskModulate (c : Cfg) (b : List Bit) : List XReal := modulateFrom c (bpskSample c) 0 b

/-- BPSK_DEM on a sample sequence (R134): one bit per complete window, 1 exactly when the correlation is `> 0`. -/
def bpskDemodulate (c : Cfg) (x : List XReal) : List Bit :=
  (List.range (x.length / c.ns)).map fun j => (corr c x j refI).isPos

/-- The phase of a dibit (R135). -/
def qpskPhase (b1 b2 : Bit) : XReal :=
  let quarters : Rat :=
    match b1, b2 with
    | false, false => 1
    | false, true => 3
    | true, false => -1
    | true, true => -3
  ((XReal.rat quarters).mul .pi).div (.rat 4)

/-- One sample of QPSK_MOD (R136): `I(t)·cos θ + Q(t)·sin θ`. -/
def qpskSample (c : Cfg) (d : Bit × Bit) (n : Nat) : XReal :=
  ((refI c n).mul (qpskPhase d.1 d.2).cos).add ((refQ c n).mul (qpskPhase d.1 d.2).sin)

/-- The dibits of a bit sequence: `b1` is the even-indexed bit, `b2` the odd-indexed one (R135, R136). -/
def dibits : List Bit → List (Bit × Bit)
  | b1 :: b2 :: rest => (b1, b2) :: dibits rest
  | _ => []

/-- QPSK_MOD on a bit sequence of even length (R136). -/
def qpskModulate (c : Cfg) (b : List Bit) : List XReal := modulateFrom c (qpskSample c) 0 (dibits b)

/-- The dibit decided from window `j` (R137): `b1` is 1 exactly when the quadrature correlation is `< 0`, `b2`
exactly when the in-phase correlation is. -/
def qpskDecide (c : Cfg) (x : List XReal) (j : Nat) : List Bit :=
  [(corr c x j refQ).isNeg, (corr c x j refI).isNeg]

/-- QPSK_DEM on a sample sequence (R137). -/
def qpskDemodulate (c : Cfg) (x : List XReal) : List Bit :=
  (List.range (x.length / c.ns)).flatMap (qpskDecide c x)

/-- BPSK_MOD (R133). -/
def execBpskMod (s : State) : Out :=
  withBits s fun b => withCfg s fun c => deliverReals s (bpskModulate c b)

/-- QPSK_MOD (R136): NotConfigured comes before InvalidLength (R223). -/
def execQpskMod (s : State) : Out :=
  withBits s fun b => withCfg s fun c =>
    if b.length % 2 = 0 then deliverReals s (qpskModulate c b) else raised s .invalidLength

/-- BPSK_DEM (R134). -/
def execBpskDem (s : State) : Out :=
  withReals s fun x => withCfg s fun c => deliverBits s (bpskDemodulate c x)

/-- QPSK_DEM (R137). -/
def execQpskDem (s : State) : Out :=
  withReals s fun x => withCfg s fun c => deliverBits s (qpskDemodulate c x)

end Sys2Proof.Machine
end

