-- ==== Sys2Proof/Machine/Dispatch.lean ====
section
/-! DEFINITION. The meaning of every command, one arm each (30_encoding.md R62). -/
namespace Sys2Proof.Machine

def exec (i : Instr) (s : State) : Host.Outcome State Fault Refusal :=
  match i with
  | .configure => Sys2Proof.Machine.execConfigure s
  | .hamEnc => Sys2Proof.Machine.execHamEnc s
  | .hamDec => Sys2Proof.Machine.execHamDec s
  | .bpskMod => Sys2Proof.Machine.execBpskMod s
  | .qpskMod => Sys2Proof.Machine.execQpskMod s
  | .bpskDem => Sys2Proof.Machine.execBpskDem s
  | .qpskDem => Sys2Proof.Machine.execQpskDem s
  | .awgnR => Sys2Proof.Machine.execAwgnR s
  | .awgnC => Sys2Proof.Machine.execAwgnC s

end Sys2Proof.Machine
end

