-- ==== Sys2Proof/Machine/Step.lean ====
section
/-! DEFINITION. One step of the machine: the block serves the host's next request (10_state.md R20, R22, R38;
40_control.md R80). The block fetches nothing; a command reaches it as a frame at the interface. -/
namespace Sys2Proof.Machine

/-- The command cycle (R80) on a frame the host issues: accept it, decode it (step 1: a reserved command word
raises IllegalCommand, R66), then run the command (steps 2 to 5). -/
def serveCommand (s : State) (f : Frame) : Out :=
  match decode f.op with
  | .ok i => exec i (s.accept f)
  | .error _ => raised (s.accept f) .illegalCommand

/-- One request of the host, served to its completion as one indivisible step (R45, R47). -/
def serve (s : State) : Request → Out
  | .command f => serveCommand s f
  | .commandThenReset f => .next (s.accept f).assertReset
  | .reset => .next s.assertReset
  | .readStatus => .next s.readStatus
  | .readCfg r => readCfg s r

/-- One step: the head of the requests is served. With none the block is idle and loses no state (R235, R251). -/
def step (s : State) : Host.Outcome State Fault Refusal :=
  match s.requests with
  | [] => .next s
  | r :: rest => serve { s with requests := rest } r

/-- The instruction put where the next step takes it: as the command frame at the head of the host's requests,
its operand empty or zero (log 5). Nothing else changes. -/
def State.withFetchWord (s : State) (_nbits w : Nat) : State :=
  { s with requests := .command (frameOfTableWord w) :: s.requests }

end Sys2Proof.Machine
end

