-- ==== Sys2Proof/Machine/ReferenceHost.lean ====
section
/-! DEFINITION. The reference host of 47_host_sequence.md: bit source, BER meter and RUN, and the
pseudo-instructions MOD and DEM (30_encoding.md R70). It is NOT hardware (00_scope.md R4): it adds no state and no
command to the block, and nothing of the machine depends on this file. -/
namespace Sys2Proof.Machine

/-- The states RUN passes through (R200). -/
inductive RunPhase where
  | configured | generated | encoded | modulated | channelApplied | demodulated | decoded | scored
deriving DecidableEq, Repr

/-- The Simulation Result (R199). -/
structure SimResult where
  originalBits : List Bit
  modulatedWaveform : List XReal
  receivedWaveform : List XReal
  recoveredBits : List Bit
  ber : Rat
deriving DecidableEq, Repr

/-- What RUN ends in, with the state of the block: a result (R199), the error of the step that failed (R198), a
fault of the host model (R202), or a stop of the block's model. -/
inductive RunOutcome where
  | done (r : SimResult) (phases : List RunPhase) (s : State)
  | aborted (code : BitVec 3) (phases : List RunPhase) (s : State)
  | fault (f : Fault)
  | refused (r : Refusal)
deriving DecidableEq, Repr

/-- The bit source (R190): `length` bits, each a free value of `source`; InvalidArgument for a negative length. -/
def generate (source : Nat → Bit) (length : Int) : Except ErrCode (List Bit) :=
  if length < 0 then .error .invalidArgument else .ok ((List.range length.toNat).map source)

/-- What the BER meter answers (R191). -/
inductive BerOutcome where
  | value (q : Rat)
  | raises (e : ErrCode)
  | fault (f : Fault)
deriving DecidableEq, Repr

/-- The BER meter (R191): LengthMismatch for unequal lengths, undefined for two empty sequences (D41). -/
def computeBer (a b : List Bit) : BerOutcome :=
  if a.length ≠ b.length then .raises .lengthMismatch
  else if a.length = 0 then .fault .berUndefined
  else .value (((List.zipWith (· != ·) a b).count true : Rat) / (a.length : Rat))

/-- The byte MODE of a CFGREC with the given discrete fields and reserved bits 0 (R64). -/
def modeByte (scheme : BitVec 2) (ecc : Bool) : Byte := (0#5 ++ BitVec.ofBool ecc ++ scheme : BitVec 8)

/-- Construction of the orchestrator (R192): one CONFIGURE command. -/
def constructFrame (scheme : BitVec 2) (ecc : Bool) (fc fs tb snrDb : XReal) : Frame :=
  ⟨encode .configure, [.cfg ⟨modeByte scheme ecc, fc, fs, tb, snrDb⟩]⟩

/-- The pseudo-instruction MOD (R70): BPSK_MOD or QPSK_MOD, by the configured scheme. -/
def modFrame (scheme : BitVec 2) (b : List Bit) : Frame :=
  ⟨encode (if scheme = 0 then .bpskMod else .qpskMod), [.bits b]⟩

/-- The pseudo-instruction DEM (R70). -/
def demFrame (scheme : BitVec 2) (x : List XReal) : Frame :=
  ⟨encode (if scheme = 0 then .bpskDem else .qpskDem), [.reals x]⟩

/-- The bits the block delivered. -/
def State.replyBits (s : State) : List Bit :=
  match s.reply with
  | some (.bits b) => b
  | _ => []

/-- The reals the block delivered. -/
def State.replyReals (s : State) : List XReal :=
  match s.reply with
  | some (.reals x) => x
  | _ => []

/-- The host issues a command, waits for its completion and goes on; an error aborts the run (R198, R253). -/
def issue (phases : List RunPhase) (s : State) (f : Frame) (next : State → RunOutcome) : RunOutcome :=
  match step { s with requests := .command f :: s.requests } with
  | .next t => if t.err = 0 then next t else .aborted t.err phases t
  | .fault r => .fault r
  | .refused r => .refused r

/-- The length a run works with: for QPSK an odd length is increased by one (R194). -/
def adjustedLength (scheme : BitVec 2) (requested : Int) : Int :=
  if scheme = 1 ∧ requested % 2 ≠ 0 then requested + 1 else requested

/-- Trailing zeros up to the next multiple of 4 (R195). -/
def padToFour (b : List Bit) : List Bit := b ++ List.replicate ((4 - b.length % 4) % 4) false

/-- Steps 6 and 7 of RUN: truncation to the adjusted length (R196), BER (R197) and the result (R199). -/
def scoreRun (phases : List RunPhase) (orig : List Bit) (wave rx : List XReal) (decoded : List Bit) (s : State) :
    RunOutcome :=
  let rec' := decoded.take orig.length
  match computeBer orig rec' with
  | .value q => .done ⟨orig, wave, rx, rec', q⟩ (phases ++ [.scored]) s
  | .raises e => .aborted e.code phases s
  | .fault f => .fault f

/-- Steps 4 to 7 of RUN: modulation, channel, demodulation, and decoding where it is enabled (R193). -/
def transmitRun (c : Cfg) (phases : List RunPhase) (orig tx : List Bit) (s : State) : RunOutcome :=
  issue phases s (modFrame c.scheme tx) fun s1 =>
    let wave := s1.replyReals
    let phases := phases ++ [.modulated]
    issue phases s1 ⟨encode .awgnR, [.reals wave]⟩ fun s2 =>
      let rx := s2.replyReals
      let phases := phases ++ [.channelApplied]
      issue phases s2 (demFrame c.scheme rx) fun s3 =>
        let phases := phases ++ [.demodulated]
        if c.eccEn then
          issue phases s3 ⟨encode .hamDec, [.bits s3.replyBits]⟩ fun s4 =>
            scoreRun (phases ++ [.decoded]) orig wave rx s4.replyBits s4
        else scoreRun phases orig wave rx s3.replyBits s3

/-- RUN (R193): the one-shot run after a successful CONFIGURE, with the bits of the bit source free. A run before
any configuration reads CFG.SCHEME while CFGD = 0, and faults (R38). -/
def runOnce (s : State) (source : Nat → Bit) (requested : Int) : RunOutcome :=
  match s.cfg with
  | none => .fault (.cfgUnset .scheme)
  | some c =>
    match generate source (adjustedLength c.scheme requested) with
    | .error e => .aborted e.code [.configured] s
    | .ok orig =>
      let phases := [.configured, .generated]
      if c.eccEn then
        issue phases s ⟨encode .hamEnc, [.bits (padToFour orig)]⟩ fun s1 =>
          transmitRun c (phases ++ [.encoded]) orig s1.replyBits s1
      else transmitRun c phases orig orig s

end Sys2Proof.Machine
end

