-- ==== Sys2Proof/Safety.lean ====
section
/-! DEFINITION. The vocabulary of the claims: the invariant of every reachable state, what a completed and what a
failed command leave unchanged, and the spec's formulas over the real numbers. -/
namespace Sys2Proof.Machine

/-- The 'legal values' of CFG (10_state.md R23), over the real numbers. -/
structure Cfg.Legal (c : Cfg) : Prop where
  scheme : c.scheme.toNat ≤ 1
  fc : 0 < c.fc.val
  fs : 0 < c.fs.val
  tb : 0 < c.tb.val
  ns : 1 ≤ c.ns

/-- The length of a result sequence; a register value has none. -/
def Reply.length : Reply → Nat
  | .bits b => b.length
  | .reals x => x.length
  | .cplx z => z.length
  | _ => 0

/-- Whether a reply is a command's result and not a register read. -/
def Reply.isResult : Reply → Bool
  | .bits _ => true
  | .reals _ => true
  | .cplx _ => true
  | _ => false

/-- The kind of a result (R63); a register value has none. -/
def Reply.kind? : Reply → Option OperandKind
  | .bits _ => some .bitSeq
  | .reals _ => some .realSeq
  | .cplx _ => some .cplxSeq
  | _ => none

/-- What holds between two requests of the host, in every state a run reaches. -/
structure State.Inv (s : State) : Prop where
  /-- CFG never holds a value that failed validation (R23). -/
  cfgLegal : ∀ c, s.cfg = some c → c.Legal
  /-- The block never writes the codes 3, 6 and 7 to ERR (R31). -/
  errLegal : s.err = 0 ∨ s.err = 1 ∨ s.err = 2 ∨ s.err = 4 ∨ s.err = 5
  /-- A command that ended in an error has set STICKY (R32). -/
  errSticky : s.err ≠ 0 → s.sticky = true
  /-- ERR says NotConfigured only while CFGD = 0 (R82). -/
  errNotConfigured : s.err = 5 → s.cfg = none
  /-- No command is in execution between two requests (R45, R47). -/
  idle : s.current = none
  /-- A result stands at the interface only where the last command completed without error (R222). -/
  resultOk : ∀ r, s.reply = some r → r.isResult = true → s.err = 0
  /-- No delivered sequence is longer than `MAX_SEQ_LEN` (R7). -/
  resultFits : ∀ r, s.reply = some r → s.tooLong r.length = false

/-- What a data command that completes leaves unchanged (R32, R35, R175): everything but ERR, which is 0, and
the number of draws taken, which grows by `k`. -/
structure DataFrame (k : Nat) (s t : State) : Prop where
  err : t.err = 0
  sticky : t.sticky = s.sticky
  cfg : t.cfg = s.cfg
  noiseSeed : t.noiseSeed = s.noiseSeed
  drawsTaken : t.drawsTaken = s.drawsTaken + k
  maxSeqLen : t.maxSeqLen = s.maxSeqLen
  requests : t.requests = s.requests
  current : t.current = none

/-- What a command that raises `e` does and leaves unchanged (R222). -/
structure ErrorFrame (e : ErrCode) (s t : State) : Prop where
  err : t.err = e.code
  sticky : t.sticky = true
  reply : t.reply = none
  cfg : t.cfg = s.cfg
  noiseSeed : t.noiseSeed = s.noiseSeed
  drawsTaken : t.drawsTaken = s.drawsTaken
  maxSeqLen : t.maxSeqLen = s.maxSeqLen
  requests : t.requests = s.requests
  current : t.current = none

/-- The six commands that read CFG (R82). -/
def readsCfg : Instr → Bool
  | .configure => false
  | .hamEnc => false
  | .hamDec => false
  | .bpskMod => true
  | .qpskMod => true
  | .bpskDem => true
  | .qpskDem => true
  | .awgnR => true
  | .awgnC => true

/-- How many draws a command that completes takes, by its operand (R175). -/
def drawCount : Instr → List Operand → Nat
  | .awgnR, [o] => o.length
  | .awgnC, [o] => 2 * o.length
  | _, _ => 0

/-- The length of the result of a command that completes, by the length laws of the commands (R109, R139, R173,
R174), in terms of the command, CFG and the frame's operands. `none` for CONFIGURE, which has no result, and where
the command ends in an error (R221). -/
def resultLength (i : Instr) (cfg : Option Cfg) (operands : List Operand) : Option Nat :=
  match i with
  | .configure => none
  | .hamEnc =>
    match operands with
    | [.bits b] => if b.length % 4 = 0 then some (7 * b.length / 4) else none
    | _ => none
  | .hamDec =>
    match operands with
    | [.bits b] => if b.length % 7 = 0 then some (4 * b.length / 7) else none
    | _ => none
  | .bpskMod =>
    match cfg, operands with
    | some c, [.bits b] => some (b.length * c.ns)
    | _, _ => none
  | .qpskMod =>
    match cfg, operands with
    | some c, [.bits b] => if b.length % 2 = 0 then some (b.length / 2 * c.ns) else none
    | _, _ => none
  | .bpskDem =>
    match cfg, operands with
    | some c, [.reals x] => some (x.length / c.ns)
    | _, _ => none
  | .qpskDem =>
    match cfg, operands with
    | some c, [.reals x] => some (2 * (x.length / c.ns))
    | _, _ => none
  | .awgnR =>
    match cfg, operands with
    | some _, [.reals x] => some x.length
    | _, _ => none
  | .awgnC =>
    match cfg, operands with
    | some _, [.cplx z] => some z.length
    | _, _ => none

/-- Element `n` of a bit sequence. -/
def bitAt (b : List Bit) (n : Nat) : Bit := b.getD n false

/-- Block `k` of a bit sequence cut into blocks of `w` bits (R105, R106). -/
def blockAt (w k : Nat) (b : List Bit) : List Bit := (b.drop (w * k)).take w

/-- The value of column `p` of H, for the element index `p` (R102: 6, 5, 3, 7, 4, 2, 1). -/
def columnValue (p : Nat) : Nat := [6, 5, 3, 7, 4, 2, 1].getD p 0

/-- The syndrome value of seven received bits, by the equations of R103. -/
def syndromeOf (r : Nat → Bit) : Nat :=
  4 * (r 0 ^^ r 1 ^^ r 3 ^^ r 4).toNat + 2 * (r 0 ^^ r 2 ^^ r 3 ^^ r 5).toNat + (r 1 ^^ r 2 ^^ r 3 ^^ r 6).toNat

/-- The real value of element `n` of a sequence of reals. -/
noncomputable def valAt (x : List XReal) (n : Nat) : ℝ := (x.getD n (.rat 0)).val

/-- `sin(2π FC n / FS)`, the carrier at sample `n` (R131, R132). -/
noncomputable def carrierSin (c : Cfg) (n : Nat) : ℝ := Real.sin (2 * Real.pi * c.fc.val * (n / c.fs.val))

/-- `cos(2π FC n / FS)` (R132, R136). -/
noncomputable def carrierCos (c : Cfg) (n : Nat) : ℝ := Real.cos (2 * Real.pi * c.fc.val * (n / c.fs.val))

/-- The correlation of symbol window `j` with a reference (R132). -/
noncomputable def windowCorr (c : Cfg) (x : List XReal) (j : Nat) (ref : Cfg → Nat → ℝ) : ℝ :=
  ∑ k ∈ Finset.range c.ns, valAt x (j * c.ns + k) * ref c k

/-- The QPSK phase table (R135). -/
noncomputable def dibitPhase : Bit → Bit → ℝ
  | false, false => Real.pi / 4
  | false, true => 3 * Real.pi / 4
  | true, false => -(Real.pi / 4)
  | true, true => -(3 * Real.pi / 4)

/-- The signal power of a real sequence (R171). -/
noncomputable def signalPower (x : List XReal) : ℝ :=
  (∑ n ∈ Finset.range x.length, valAt x n ^ 2) / x.length

/-- Element `n` of a complex sequence. -/
def cplxAt (z : List Cplx) (n : Nat) : Cplx := z.getD n ⟨.rat 0, .rat 0⟩

/-- The signal power of a complex sequence (R171). -/
noncomputable def signalPowerCplx (z : List Cplx) : ℝ :=
  (∑ n ∈ Finset.range z.length, ((cplxAt z n).re.val ^ 2 + (cplxAt z n).im.val ^ 2)) / z.length

/-- The noise power for a signal power `p` (R172). -/
noncomputable def noisePowerOf (c : Cfg) (p : ℝ) : ℝ := p / (10 : ℝ) ^ (c.snrDb.val / 10)

/-- A configuration for which the noiseless round trip holds (R140): a window holds a whole number `m` of carrier
cycles, and `2m` is not a multiple of `NS`. -/
def RoundTripCfg (c : Cfg) : Prop :=
  ∃ m : Nat, c.fc.val * c.ns / c.fs.val = m ∧ ¬ c.ns ∣ 2 * m

/-- The legal record of CONFIGURE (R64, R81), over the real numbers. -/
structure LegalRecord (r : CfgRec) : Prop where
  reserved : r.mode.toNat / 8 = 0
  scheme : r.mode.toNat % 4 ≤ 1
  fc : 0 < r.fc.val
  fs : 0 < r.fs.val
  tb : 0 < r.tb.val
  ns : 1 ≤ ⌊r.tb.val * r.fs.val⌋₊

/-- The next step serves a command: the frame at the head of the host's requests. -/
def State.issues (s : State) (f : Frame) (rest : List Request) : Prop := s.requests = .command f :: rest

end Sys2Proof.Machine
end

