-- ==== Sys2Proof/Certificates/Slice0/Obligations.lean ====
section
/-! DEFINITION. The statements about the model, from the numbered rules of the spec. -/

open Sys2Proof Sys2Proof.Machine

/-! ### Encoding -/

/-- R62: the nine rows of the opcode map, with each command word written out and each command's operand and result
kind; and every other value of OP is reserved. -/
def Obligations.OpcodeMapWordsDecode : Prop :=
  (∀ row ∈ ([(0x01, .configure, .cfgRec, none), (0x10, .hamEnc, .bitSeq, some .bitSeq),
      (0x11, .hamDec, .bitSeq, some .bitSeq), (0x20, .bpskMod, .bitSeq, some .realSeq),
      (0x21, .qpskMod, .bitSeq, some .realSeq), (0x30, .bpskDem, .realSeq, some .bitSeq),
      (0x31, .qpskDem, .realSeq, some .bitSeq), (0x40, .awgnR, .realSeq, some .realSeq),
      (0x41, .awgnC, .cplxSeq, some .cplxSeq)] : List (Byte × Instr × OperandKind × Option OperandKind)),
    decode row.1 = .ok row.2.1 ∧ row.2.1.operandKind = row.2.2.1 ∧ row.2.1.resultKind = row.2.2.2) ∧
  ∀ op : Byte, op ∉ [0x01, 0x10, 0x11, 0x20, 0x21, 0x30, 0x31, 0x40, 0x41] → ∃ e, decode op = .error e

/-- R68: decoding and encoding agree both ways; every value of OP is the word of one command or reserved. -/
def Obligations.DecodeIsTheInverseOfEncode : Prop :=
  ∀ op : Byte, (∀ i, decode op = .ok i ↔ op = encode i) ∧ ((∃ i, decode op = .ok i) ∨ ∃ e, decode op = .error e)

/-! ### The step -/

/-- R80: when the host's next request is a command frame whose word decodes, the step is exec of that command on
the frame, with the request taken off the host's list. -/
def Obligations.StepRunsDecodedCommand : Prop :=
  ∀ s f rest i, s.issues f rest → decode f.op = .ok i → step s = exec i ({ s with requests := rest }.accept f)

/-- The word that withFetchWord places is the one the next step runs, with an empty or zero operand (log 5). -/
def Obligations.FetchedWordRunsNext : Prop :=
  ∀ (s : State) (i : Instr),
    step (s.withFetchWord 8 (encode i).toNat) = exec i (s.accept ⟨encode i, [zeroOperand i.operandKind]⟩)

/-- R235, R251: with nothing to do the block is idle, and idling loses no state. -/
def Obligations.IdleStepKeepsState : Prop := ∀ s : State, s.requests = [] → step s = .next s

/-- R66: a reserved word completes with IllegalCommand, and its other effects are none; 247 values are reserved. -/
def Obligations.ReservedWordRaisesIllegalCommand : Prop :=
  (∀ s f rest, s.issues f rest → (∀ i, f.op ≠ encode i) →
    ∃ t, step s = .next t ∧ ErrorFrame .illegalCommand { s with requests := rest } t) ∧
  ((List.range 256).filter fun n => (decode (BitVec.ofNat 8 n)).toOption == none).length = 247

/-- R67: a frame with no operand, with more than one, or with one of another kind than the opcode fixes completes
with IllegalCommand, for each of the nine commands. -/
def Obligations.MalformedFrameRaisesIllegalCommand : Prop :=
  ∀ s i, i.operandsFit s.operands = false → ∃ t, exec i s = .next t ∧ ErrorFrame .illegalCommand s t

/-- R82, R232: each of the six commands that read CFG, with a well-formed frame within the length limit, raises
NotConfigured while CFGD = 0, whatever its length; and a step leaves CFGD = 0 only by a CONFIGURE that completes. -/
def Obligations.NotConfiguredBeforeLengthCheck : Prop :=
  (∀ s i o, readsCfg i = true → s.cfg = none → s.operands = [o] → o.kind = i.operandKind →
    s.tooLong o.length = false → ∃ t, exec i s = .next t ∧ ErrorFrame .notConfigured s t) ∧
  (∀ s t, s.cfg = none → step s = .next t → t.cfg ≠ none →
    ∃ f rest, s.issues f rest ∧ f.op = 0x01 ∧ t.err = 0)

/-- R60, R62, R63: a command that completes delivers a result of the kind the opcode map gives it (CONFIGURE none);
one that ends in an error delivers none. -/
def Obligations.ResultKindFollowsOpcode : Prop :=
  ∀ s t i, exec i s = .next t →
    (t.err = 0 → t.reply.bind Reply.kind? = i.resultKind) ∧ (t.err = 0 → i = .configure → t.reply = none) ∧
      (t.err ≠ 0 → t.reply = none)

/-- R222: a served command that ends with a code other than 0 in ERR has exactly the effects of an error. -/
def Obligations.FailedCommandHasOnlyErrorEffects : Prop :=
  ∀ s f rest t, s.issues f rest → step s = .next t → t.err ≠ 0 →
    ∃ e, e ≠ .ok ∧ ErrorFrame e { s with requests := rest } t

/-- R221: the exact cause of each error code, for every frame. -/
def Obligations.ErrorCodeTellsItsCause : Prop :=
  ∀ s f rest t, s.issues f rest → step s = .next t →
    (t.err = 4 ↔ ∀ i, decode f.op = .ok i → i.operandsFit f.operands = false) ∧
    (t.err = 5 ↔ ∃ i, decode f.op = .ok i ∧ i.operandsFit f.operands = true ∧ readsCfg i = true ∧ s.cfg = none) ∧
    (t.err = 1 ↔ ∃ r, decode f.op = .ok .configure ∧ f.operands = [.cfg r] ∧ ¬ LegalRecord r) ∧
    (t.err = 2 ↔ ∃ b, f.operands = [.bits b] ∧
      ((decode f.op = .ok .hamEnc ∧ b.length % 4 ≠ 0) ∨ (decode f.op = .ok .hamDec ∧ b.length % 7 ≠ 0) ∨
        (decode f.op = .ok .qpskMod ∧ s.cfg ≠ none ∧ b.length % 2 ≠ 0)))

/-- R32: a command leaves STICKY set exactly if it was set or the command ended in an error, and no request but a
reset clears it. -/
def Obligations.StickyIsSetByErrorsAndClearedByReset : Prop :=
  ∀ s t, step s = .next t →
    (∀ f rest, s.issues f rest → (t.sticky = true ↔ s.sticky = true ∨ t.err ≠ 0)) ∧
    (s.sticky = true → t.sticky = false →
      ∃ rest, s.requests = .reset :: rest ∨ ∃ f, s.requests = .commandThenReset f :: rest)

/-- R23: CFG changes only where the request served is a CONFIGURE command or a reset. -/
def Obligations.OnlyConfigureAndResetChangeCfg : Prop :=
  ∀ s t, step s = .next t → t.cfg ≠ s.cfg →
    ∃ rest, s.requests = .reset :: rest ∨ (∃ f, s.requests = .commandThenReset f :: rest) ∨
      ∃ f, s.issues f rest ∧ f.op = 0x01

/-- R30: the layout of STATUS. -/
def Obligations.StatusLayout : Prop :=
  ∀ s : State, s.status.extractLsb' 0 3 = s.err ∧ s.status.getLsbD 3 = s.cfg.isSome ∧
    s.status.getLsbD 4 = s.sticky ∧ s.status.extractLsb' 5 3 = 0

/-- R39: the state after reset. The fields the spec gives no value (the seed's label, the model's own interface
fields) are left out of the statement. -/
def Obligations.ResetState : Prop :=
  State.reset.cfg = none ∧ State.reset.err = 0 ∧ State.reset.sticky = false ∧ State.reset.status = 0x00 ∧
    State.reset.current = none ∧ State.reset.reply = none

/-- R250: from every state, reset, asserted between commands or while a command is executing, leaves CFG unset,
STATUS 0x00, no command in progress and no result; the rest of the host's requests stays. -/
def Obligations.ResetSetsStateAndDiscardsCommand : Prop :=
  ∀ s f rest, (s.requests = .reset :: rest ∨ s.requests = .commandThenReset f :: rest) →
    ∃ t, step s = .next t ∧ t.cfg = none ∧ t.status = 0x00 ∧ t.current = none ∧ t.reply = none ∧
      t.maxSeqLen = s.maxSeqLen ∧ t.requests = rest

/-- R38: a read of STATUS, and of a CFG field or NS while CFGD = 1, delivers the value and changes nothing else; a
read of a CFG field or NS while CFGD = 0 faults. -/
def Obligations.HostReads : Prop :=
  (∀ s rest, s.requests = .readStatus :: rest →
    step s = .next { s with requests := rest, reply := some (.status s.status) }) ∧
  (∀ s rest r c, s.requests = .readCfg r :: rest → s.cfg = some c →
    ∃ v, step s = .next { s with requests := rest, reply := some v } ∧
      v = match r with
        | .scheme => .scheme c.scheme
        | .eccEn => .eccEn c.eccEn
        | .fc => .real c.fc
        | .fs => .real c.fs
        | .tb => .real c.tb
        | .snrDb => .real c.snrDb
        | .ns => .ns ⌊c.tb.val * c.fs.val⌋₊) ∧
  (∀ s rest r, s.requests = .readCfg r :: rest → s.cfg = none → step s = .fault (.cfgUnset r))

/-- R80 (step 2), I6: a well-formed operand over MAX_SEQ_LEN is refused, for every command with a sequence operand. -/
def Obligations.OversizeOperandIsRefused : Prop :=
  ∀ s i o, i ≠ .configure → s.operands = [o] → o.kind = i.operandKind → s.tooLong o.length = true →
    exec i s = .refused (.operandTooLong o.length)

/-- I6: a command never faults, and one that is refused has a well-formed operand and is refused for exactly one
length over MAX_SEQ_LEN: its operand's, or, where the operand is within the limit, its result's. -/
def Obligations.CommandsStopOnlyForLength : Prop :=
  ∀ s i, (∀ r, exec i s ≠ .fault r) ∧
    ∀ r, exec i s = .refused r →
      ∃ o, s.operands = [o] ∧ o.kind = i.operandKind ∧
        ((s.tooLong o.length = true ∧ r = .operandTooLong o.length) ∨
          (s.tooLong o.length = false ∧
            ∃ n, resultLength i s.cfg [o] = some n ∧ s.tooLong n = true ∧ r = .resultTooLong n))

/-- I6: a command whose operand is within MAX_SEQ_LEN and whose result, by its length law, is over it is refused. -/
def Obligations.OversizeResultIsRefused : Prop :=
  ∀ s i o n, s.operands = [o] → s.tooLong o.length = false → resultLength i s.cfg [o] = some n →
    s.tooLong n = true → exec i s = .refused (.resultTooLong n)

/-- R109, R139, R173, R174: the result of every command that goes to a next state has the length its length law
gives; a command that raises, and CONFIGURE, has none. -/
def Obligations.ResultLengthFollowsLengthLaw : Prop :=
  ∀ s t i, exec i s = .next t → t.reply.map Reply.length = resultLength i s.cfg s.operands

/-- R257: "every command completes": with no length limit each frame the host issues goes to a next state. -/
def Obligations.EveryCommandCompletes : Prop :=
  ∀ s f rest, s.maxSeqLen = none → s.issues f rest → ∃ t, step s = .next t ∧ t.current = none ∧ t.requests = rest

/-- R45: every command but AWGN_R and AWGN_C is idempotent: issued again on the same operand in the state it left,
it answers the same state, result and STATUS included. -/
def Obligations.NonAwgnCommandsAreIdempotent : Prop :=
  ∀ s t i, i ≠ .awgnR → i ≠ .awgnC → exec i s = .next t →
    exec i { t with current := s.current } = .next t

/-- R37: a command's outcome depends on its operands, CFG, STICKY, the noise source and the length limit alone; in
particular the result of the command before it does not matter. -/
def Obligations.NothingElseCarriesOver : Prop :=
  ∀ s s' t i, s'.operands = s.operands → s'.cfg = s.cfg → s'.sticky = s.sticky → s'.noiseSeed = s.noiseSeed →
    s'.drawsTaken = s.drawsTaken → s'.maxSeqLen = s.maxSeqLen → exec i s = .next t →
    exec i s' = .next { t with requests := s'.requests }

/-- R24, R25: no command but CONFIGURE depends on CFG.SCHEME or CFG.ECC_EN. -/
def Obligations.SchemeAndEccAreReadByNoCommand : Prop :=
  ∀ s t i c scheme ecc, i ≠ .configure → s.cfg = some c → exec i s = .next t →
    exec i { s with cfg := some { c with scheme := scheme, eccEn := ecc } } =
      .next { t with cfg := some { c with scheme := scheme, eccEn := ecc } }

/-! ### The invariant -/

/-- What holds between two requests is kept by every step. -/
def Obligations.EveryStepKeepsInv : Prop := ∀ s t : State, s.Inv → step s = .next t → t.Inv

/-- The state after reset meets the invariant. -/
def Obligations.ResetMeetsInv : Prop := State.reset.Inv

/-! ### Configuration -/

/-- R81: CONFIGURE on a legal record writes all six fields together; on any other it raises InvalidArgument and
changes none. -/
def Obligations.ConfigureWritesAllOrNothing : Prop :=
  ∀ s r, s.operands = [.cfg r] →
    (LegalRecord r → ∃ t, exec .configure s = .next t ∧ t.reply = none ∧ DataFrame 0 { s with cfg := t.cfg } t ∧
      ∃ c, t.cfg = some c ∧ c.scheme.toNat = r.mode.toNat % 4 ∧ c.eccEn = r.mode.getLsbD 2 ∧ c.fc = r.fc ∧
        c.fs = r.fs ∧ c.tb = r.tb ∧ c.snrDb = r.snrDb) ∧
    (¬ LegalRecord r → ∃ t, exec .configure s = .next t ∧ ErrorFrame .invalidArgument s t)

/-- R192, R64: the frame the host builds from six legal parameters configures the block with exactly those six. -/
def Obligations.ConstructionWritesParameters : Prop :=
  ∀ s rest scheme ecc fc fs tb snrDb, s.issues (constructFrame scheme ecc fc fs tb snrDb) rest →
    scheme.toNat ≤ 1 → 0 < fc.val → 0 < fs.val → 0 < tb.val → 1 ≤ ⌊tb.val * fs.val⌋₊ →
    ∃ t, step s = .next t ∧ t.cfg = some ⟨scheme, ecc, fc, fs, tb, snrDb⟩ ∧ t.err = 0 ∧ t.sticky = s.sticky ∧
      t.requests = rest

/-- R28: NS is the floor of TB·FS, and at least 1 whenever CFGD = 1. -/
def Obligations.SamplesPerSymbolIsFloor : Prop :=
  ∀ (s : State) c, s.Inv → s.cfg = some c → c.ns = ⌊c.tb.val * c.fs.val⌋₊ ∧ 1 ≤ c.ns

/-! ### Channel coder -/

/-- R105, R101: HAM_ENC. -/
def Obligations.HamEncResult : Prop :=
  ∀ s b, s.operands = [.bits b] → s.tooLong b.length = false →
    (b.length % 4 = 0 → s.tooLong (7 * b.length / 4) = false →
      ∃ out t, exec .hamEnc s = .next t ∧ t.reply = some (.bits out) ∧ DataFrame 0 s t ∧
        out.length = 7 * b.length / 4 ∧
        ∀ k < b.length / 4, blockAt 7 k out =
          [bitAt b (4 * k), bitAt b (4 * k + 1), bitAt b (4 * k + 2), bitAt b (4 * k + 3),
            bitAt b (4 * k) ^^ bitAt b (4 * k + 1) ^^ bitAt b (4 * k + 3),
            bitAt b (4 * k) ^^ bitAt b (4 * k + 2) ^^ bitAt b (4 * k + 3),
            bitAt b (4 * k + 1) ^^ bitAt b (4 * k + 2) ^^ bitAt b (4 * k + 3)]) ∧
    (b.length % 4 ≠ 0 → ∃ t, exec .hamEnc s = .next t ∧ ErrorFrame .invalidLength s t)

/-- R106, R103, R104: HAM_DEC. Bit `i` of a block's message is the received bit, flipped exactly if the syndrome
value is the value of column `i` of H. -/
def Obligations.HamDecResult : Prop :=
  ∀ s b, s.operands = [.bits b] → s.tooLong b.length = false →
    (b.length % 7 = 0 →
      ∃ out t, exec .hamDec s = .next t ∧ t.reply = some (.bits out) ∧ DataFrame 0 s t ∧
        out.length = 4 * b.length / 7 ∧
        ∀ k < b.length / 7, blockAt 4 k out =
          (List.range 4).map fun i =>
            bitAt b (7 * k + i) ^^ decide (syndromeOf (fun j => bitAt b (7 * k + j)) = columnValue i)) ∧
    (b.length % 7 ≠ 0 → ∃ t, exec .hamDec s = .next t ∧ ErrorFrame .invalidLength s t)

/-- R107: HAM_DEC of a codeword sequence with an error pattern gives a block's message back exactly where at most
one of its seven bits is wrong, and never an error. -/
def Obligations.HamDecCorrectsExactlySingleErrors : Prop :=
  ∀ s b e, b.length % 4 = 0 → e.length = 7 * (b.length / 4) →
    s.operands = [.bits (List.zipWith xor (hamEncode b) e)] → s.tooLong (7 * (b.length / 4)) = false →
    ∃ out t, exec .hamDec s = .next t ∧ t.reply = some (.bits out) ∧ t.err = 0 ∧ out.length = b.length ∧
      ∀ k < b.length / 4, (blockAt 4 k out = blockAt 4 k b ↔ (blockAt 7 k e).count true ≤ 1)

/-- R102, R104: every codeword has syndrome 0, and one wrong bit gives the syndrome that selects its position. -/
def Obligations.SyndromeLocatesSingleError : Prop :=
  ∀ m0 m1 m2 m3 : Bit, syndrome (codeword [m0, m1, m2, m3]) = 0 ∧
    ∀ p < 7, syndrome ((codeword [m0, m1, m2, m3]).modify p (!·)) = columnValue p ∧
      errorPos (columnValue p) = some (p + 1)

/-- R109: the length laws of the Hamming commands, and that each is a blockwise map. -/
def Obligations.HammingLengthsAndBlocks : Prop :=
  ∀ a b : List Bit,
    (a.length % 4 = 0 → (hamEncode a).length = 7 * a.length / 4 ∧ hamEncode (a ++ b) = hamEncode a ++ hamEncode b) ∧
    (a.length % 7 = 0 → (hamDecode a).length = 4 * a.length / 7 ∧ hamDecode (a ++ b) = hamDecode a ++ hamDecode b)

/-! ### Modulator and demodulator -/

/-- R133, R131: BPSK_MOD. -/
def Obligations.BpskModResult : Prop :=
  ∀ s b c, s.operands = [.bits b] → s.cfg = some c → s.tooLong b.length = false →
    s.tooLong (b.length * c.ns) = false →
    ∃ out t, exec .bpskMod s = .next t ∧ t.reply = some (.reals out) ∧ DataFrame 0 s t ∧
      out.length = b.length * c.ns ∧
      ∀ j < b.length, ∀ k < c.ns,
        valAt out (j * c.ns + k) = (if bitAt b j then 1 else -1) * carrierSin c (j * c.ns + k)

/-- R136, R135, R131: QPSK_MOD. -/
def Obligations.QpskModResult : Prop :=
  ∀ s b c, s.operands = [.bits b] → s.cfg = some c → s.tooLong b.length = false →
    (b.length % 2 = 0 → s.tooLong (b.length / 2 * c.ns) = false →
      ∃ out t, exec .qpskMod s = .next t ∧ t.reply = some (.reals out) ∧ DataFrame 0 s t ∧
        out.length = b.length / 2 * c.ns ∧
        ∀ j < b.length / 2, ∀ k < c.ns,
          valAt out (j * c.ns + k) =
            carrierSin c (j * c.ns + k) * Real.cos (dibitPhase (bitAt b (2 * j)) (bitAt b (2 * j + 1))) +
            carrierCos c (j * c.ns + k) * Real.sin (dibitPhase (bitAt b (2 * j)) (bitAt b (2 * j + 1)))) ∧
    (b.length % 2 ≠ 0 → ∃ t, exec .qpskMod s = .next t ∧ ErrorFrame .invalidLength s t)

/-- R134, R132: BPSK_DEM. -/
def Obligations.BpskDemResult : Prop :=
  ∀ s x c, s.operands = [.reals x] → s.cfg = some c → s.tooLong x.length = false →
    ∃ out t, exec .bpskDem s = .next t ∧ t.reply = some (.bits out) ∧ DataFrame 0 s t ∧
      out.length = x.length / c.ns ∧
      ∀ j < x.length / c.ns, (bitAt out j = true ↔ 0 < windowCorr c x j carrierSin)

/-- R137, R132: QPSK_DEM. -/
def Obligations.QpskDemResult : Prop :=
  ∀ s x c, s.operands = [.reals x] → s.cfg = some c → s.tooLong x.length = false →
    s.tooLong (2 * (x.length / c.ns)) = false →
    ∃ out t, exec .qpskDem s = .next t ∧ t.reply = some (.bits out) ∧ DataFrame 0 s t ∧
      out.length = 2 * (x.length / c.ns) ∧
      ∀ j < x.length / c.ns, (bitAt out (2 * j) = true ↔ windowCorr c x j carrierCos < 0) ∧
        (bitAt out (2 * j + 1) = true ↔ windowCorr c x j carrierSin < 0)

/-- R142: each QPSK_MOD sample is the carrier advanced by the phase of its dibit. -/
def Obligations.QpskSampleIsShiftedCarrier : Prop :=
  ∀ s b c, s.operands = [.bits b] → s.cfg = some c → s.tooLong b.length = false → b.length % 2 = 0 →
    s.tooLong (b.length / 2 * c.ns) = false →
    ∃ out t, exec .qpskMod s = .next t ∧ t.reply = some (.reals out) ∧
      ∀ j < b.length / 2, ∀ k < c.ns,
        valAt out (j * c.ns + k) = Real.sin (2 * Real.pi * c.fc.val * (((j * c.ns + k : Nat) : ℝ) / c.fs.val) +
          dibitPhase (bitAt b (2 * j)) (bitAt b (2 * j + 1)))

/-- R141: no sample of a modulator exceeds magnitude 1. -/
def Obligations.ModulatedAmplitudeIsAtMostOne : Prop :=
  ∀ s t i out, i = .bpskMod ∨ i = .qpskMod → exec i s = .next t → t.reply = some (.reals out) →
    ∀ n, |valAt out n| ≤ 1

/-- R140 for BPSK: the noiseless round trip under the condition on the configuration, with the exact correlations. -/
def Obligations.BpskNoiselessRoundTrip : Prop :=
  ∀ s b c, s.operands = [.bits b] → s.cfg = some c → c.Legal → RoundTripCfg c → s.maxSeqLen = none →
    ∃ w t u, exec .bpskMod s = .next t ∧ t.reply = some (.reals w) ∧
      (∀ j < b.length, windowCorr c w j carrierSin = (if bitAt b j then 1 else -1) * (c.ns / 2)) ∧
      exec .bpskDem (t.accept ⟨encode .bpskDem, [.reals w]⟩) = .next u ∧ u.reply = some (.bits b)

/-- R140 for QPSK, for every bit sequence of even length, with the exact correlations. -/
def Obligations.QpskNoiselessRoundTrip : Prop :=
  ∀ s b c, s.operands = [.bits b] → b.length % 2 = 0 → s.cfg = some c → c.Legal → RoundTripCfg c →
    s.maxSeqLen = none →
    ∃ w t u, exec .qpskMod s = .next t ∧ t.reply = some (.reals w) ∧
      (∀ j < b.length / 2,
        windowCorr c w j carrierSin = c.ns / 2 * Real.cos (dibitPhase (bitAt b (2 * j)) (bitAt b (2 * j + 1))) ∧
        windowCorr c w j carrierCos = c.ns / 2 * Real.sin (dibitPhase (bitAt b (2 * j)) (bitAt b (2 * j + 1)))) ∧
      exec .qpskDem (t.accept ⟨encode .qpskDem, [.reals w]⟩) = .next u ∧ u.reply = some (.bits b)

/-- R138: where 2·FC/FS is an integer, every carrier sample is 0; BPSK_MOD gives only zeros, BPSK_DEM only 0s, and
QPSK_DEM b2 = 0 for every symbol. -/
def Obligations.IntegerHalfRatioSilencesCarrier : Prop :=
  ∀ s c (m : ℤ), s.cfg = some c → c.Legal → 2 * c.fc.val / c.fs.val = (m : ℝ) → s.maxSeqLen = none →
    (∀ n, carrierSin c n = 0) ∧
    (∀ b, s.operands = [.bits b] →
      ∃ out t, exec .bpskMod s = .next t ∧ t.reply = some (.reals out) ∧ ∀ n, valAt out n = 0) ∧
    (∀ x, s.operands = [.reals x] →
      (∃ out t, exec .bpskDem s = .next t ∧ t.reply = some (.bits out) ∧ ∀ n, bitAt out n = false) ∧
      ∃ out t, exec .qpskDem s = .next t ∧ t.reply = some (.bits out) ∧ ∀ j, bitAt out (2 * j + 1) = false)

/-! ### Channel model -/

/-- R173, R171, R172, R175: AWGN_R, for every value of the draws; an empty operand takes none. -/
def Obligations.AwgnRResult : Prop :=
  ∀ s x c, s.operands = [.reals x] → s.cfg = some c → s.tooLong x.length = false →
    ∃ out t, exec .awgnR s = .next t ∧ t.reply = some (.reals out) ∧ DataFrame x.length s t ∧
      out.length = x.length ∧
      ∀ n < x.length, valAt out n = valAt x n +
        Real.sqrt (noisePowerOf c (signalPower x)) * Config.noise s.noiseSeed (s.drawsTaken + n)

/-- R174, R171, R172, R175: AWGN_C, the real parts' draws first. -/
def Obligations.AwgnCResult : Prop :=
  ∀ s z c, s.operands = [.cplx z] → s.cfg = some c → s.tooLong z.length = false →
    ∃ out t, exec .awgnC s = .next t ∧ t.reply = some (.cplx out) ∧ DataFrame (2 * z.length) s t ∧
      out.length = z.length ∧
      ∀ n < z.length,
        (cplxAt out n).re.val = (cplxAt z n).re.val +
          Real.sqrt (noisePowerOf c (signalPowerCplx z) / 2) * Config.noise s.noiseSeed (s.drawsTaken + n) ∧
        (cplxAt out n).im.val = (cplxAt z n).im.val +
          Real.sqrt (noisePowerOf c (signalPowerCplx z) / 2) *
            Config.noise s.noiseSeed (s.drawsTaken + z.length + n)

/-- R172, R171: for a real and for a complex operand, the noise power is P / 10^(SNR_DB/10), is never negative, and is
0 exactly when the signal power is. -/
def Obligations.NoisePowerFollowsSignalPower : Prop :=
  ∀ (c : Cfg) (x : List XReal) (z : List Cplx), x ≠ [] → z ≠ [] →
    ((noisePower c (meanOf (x.map realPower))).val = signalPower x / (10 : ℝ) ^ (c.snrDb.val / 10) ∧
      0 ≤ (noisePower c (meanOf (x.map realPower))).val ∧
      ((noisePower c (meanOf (x.map realPower))).val = 0 ↔ signalPower x = 0)) ∧
    ((noisePower c (meanOf (z.map cplxPower))).val = signalPowerCplx z / (10 : ℝ) ^ (c.snrDb.val / 10) ∧
      0 ≤ (noisePower c (meanOf (z.map cplxPower))).val ∧
      ((noisePower c (meanOf (z.map cplxPower))).val = 0 ↔ signalPowerCplx z = 0))

/-- R173 (corner case): an all-zero operand comes out of AWGN_R unchanged in value, and its draws are taken. -/
def Obligations.AwgnRKeepsZeroSignal : Prop :=
  ∀ s x c, s.operands = [.reals x] → s.cfg = some c → s.tooLong x.length = false → (∀ n, valAt x n = 0) →
    ∃ out t, exec .awgnR s = .next t ∧ t.reply = some (.reals out) ∧ out.length = x.length ∧
      t.drawsTaken = s.drawsTaken + x.length ∧ ∀ n, valAt out n = 0

/-- R175: the draws each command takes: L for AWGN_R, 2L for AWGN_C, none for any other command or for a command
that raises. -/
def Obligations.DrawAccounting : Prop :=
  ∀ s t i, exec i s = .next t →
    t.noiseSeed = s.noiseSeed ∧
    t.drawsTaken = s.drawsTaken + (if t.err = 0 then drawCount i s.operands else 0)

/-- R177: the draws a command takes and the draws any later command takes are disjoint. -/
def Obligations.LaterDrawsAreFresh : Prop :=
  ∀ s t i k, exec i s = .next t → t.err = 0 →
    List.Disjoint (s.draws (drawCount i s.operands)) (t.draws k)

/-! ### The reference host -/

/-- R191: the BER meter. -/
def Obligations.BerMeter : Prop :=
  ∀ a b : List Bit,
    (a.length ≠ b.length → computeBer a b = .raises .lengthMismatch) ∧
    (a.length = b.length → a = [] → computeBer a b = .fault .berUndefined) ∧
    (a.length = b.length → a ≠ [] → ∃ q, computeBer a b = .value q ∧ 0 ≤ q ∧ q ≤ 1 ∧
      q * a.length = ((List.range a.length).filter fun n => bitAt a n != bitAt b n).length ∧
      (q = 0 ↔ a = b) ∧ (q = 1 ↔ ∀ n < a.length, bitAt a n ≠ bitAt b n))

/-- R194, R196, R197, R200: the recovered sequence never comes out shorter than the adjusted length, so no run ends in
LengthMismatch; a run that completes has scored two sequences of that length, with a BER in [0, 1], and has passed
through its states in order, the two optional ones exactly if error correction is enabled. -/
def Obligations.RunScoresAdjustedLength : Prop :=
  ∀ s c source requested, s.Inv → s.cfg = some c →
    (∀ phases t, runOnce s source requested ≠ .aborted ErrCode.lengthMismatch.code phases t) ∧
    ∀ r phases t, runOnce s source requested = .done r phases t →
      (r.originalBits.length : ℤ) = adjustedLength c.scheme requested ∧
      r.recoveredBits.length = r.originalBits.length ∧ 0 ≤ r.ber ∧ r.ber ≤ 1 ∧
      phases = if c.eccEn then
          [.configured, .generated, .encoded, .modulated, .channelApplied, .demodulated, .decoded, .scored]
        else [.configured, .generated, .modulated, .channelApplied, .demodulated, .scored]

/-- R201: with QPSK and error correction, a run whose padded length is an odd number of blocks aborts with
InvalidLength. -/
def Obligations.RunAbortsOnOddCodeLength : Prop :=
  ∀ s c source requested, s.cfg = some c → c.scheme = 1 → c.eccEn = true → s.maxSeqLen = none →
    0 < requested → ((adjustedLength 1 requested + 3) / 4) % 2 = 1 →
    ∃ phases t, runOnce s source requested = .aborted 2 phases t ∧ t.sticky = true

/-- R190, R193: a run of negative adjusted length aborts with InvalidArgument before any command is issued. -/
def Obligations.RunRejectsNegativeLength : Prop :=
  ∀ s c source requested, s.cfg = some c → adjustedLength c.scheme requested < 0 →
    runOnce s source requested = .aborted 1 [.configured] s

/-- R202: RUN 0 reaches the BER of two empty sequences, and faults. -/
def Obligations.RunZeroIsUndefined : Prop :=
  ∀ s c source, s.cfg = some c → s.maxSeqLen = none → runOnce s source 0 = .fault .berUndefined
end

