-- ==== Sys2Proof/Laws/ExactReal.lean ====
section
/-! SUPPORT. The evaluator of Machine/ExactReal.lean names only the true value, so comparison and truncation
depend on `XReal.val` alone. -/
namespace Sys2Proof

/-! ### Values of the constructors -/

@[simp] theorem XReal.val_rat (q : Rat) : (XReal.rat q).val = (q : ℝ) := rfl
@[simp] theorem XReal.val_pi : XReal.pi.val = Real.pi := rfl
@[simp] theorem XReal.val_neg (a : XReal) : a.neg.val = -a.val := rfl
@[simp] theorem XReal.val_add (a b : XReal) : (a.add b).val = a.val + b.val := rfl
@[simp] theorem XReal.val_sub (a b : XReal) : (a.sub b).val = a.val - b.val := rfl
@[simp] theorem XReal.val_mul (a b : XReal) : (a.mul b).val = a.val * b.val := rfl
@[simp] theorem XReal.val_div (a b : XReal) : (a.div b).val = a.val / b.val := rfl
@[simp] theorem XReal.val_sin (a : XReal) : a.sin.val = Real.sin a.val := rfl
@[simp] theorem XReal.val_cos (a : XReal) : a.cos.val = Real.cos a.val := rfl
@[simp] theorem XReal.val_sqrt (a : XReal) : a.sqrt.val = Real.sqrt a.val := rfl
@[simp] theorem XReal.val_pow10 (a : XReal) : a.pow10.val = (10 : ℝ) ^ a.val := rfl
@[simp] theorem XReal.val_draw (s n : Nat) : (XReal.draw s n).val = Config.noise s n := rfl
@[simp] theorem XReal.val_hostReal (n : Nat) : (XReal.hostReal n).val = Config.hostReal n := rfl
@[simp] theorem XReal.val_ofNat (n : Nat) : (XReal.ofNat n).val = (n : ℝ) := by simp [XReal.ofNat]

@[simp] theorem XReal.val_sum (l : List XReal) : (XReal.sum l).val = (l.map XReal.val).sum := by
  induction l with
  | nil => simp [XReal.sum]
  | cons a as ih => simp [XReal.sum, ih]

/-! ### The evaluator's operations -/

theorem sqrt_two_sq : Real.sqrt 2 * Real.sqrt 2 = 2 := Real.mul_self_sqrt (by norm_num)

theorem Exact.ofPi_val (q : Rat) : (Exact.ofPi q).val = q * Real.pi := by
  unfold Exact.ofPi; split <;> simp_all [Exact.val]

theorem Exact.neg_val (x : Exact) : x.neg.val = -x.val := by
  cases x with
  | surd a b => simp [Exact.neg, Exact.val]; ring
  | piMul q => simp [Exact.neg, Exact.val]

theorem Exact.add_val {x y z : Exact} (h : x.add y = some z) : z.val = x.val + y.val := by
  cases x <;> cases y <;> simp only [Exact.add] at h
  · cases h; simp [Exact.val]; ring
  · split at h
    · next hz => cases h; simp [Exact.val, hz.1, hz.2]
    · cases h
  · split at h
    · next hz => cases h; simp [Exact.val, hz.1, hz.2]
    · cases h
  · cases h; rw [Exact.ofPi_val]; simp [Exact.val]; ring

theorem Exact.mul_val {x y z : Exact} (h : x.mul y = some z) : z.val = x.val * y.val := by
  rcases x with ⟨a, b⟩ | p <;> rcases y with ⟨c, d⟩ | q <;> simp only [Exact.mul] at h
  · cases h; simp [Exact.val]; linear_combination (-(b : ℝ) * d) * sqrt_two_sq
  · split at h
    · next hz => cases h; rw [Exact.ofPi_val]; simp [Exact.val, hz]; ring
    · cases h
  · split at h
    · next hz => cases h; rw [Exact.ofPi_val]; simp [Exact.val, hz]; ring
    · cases h
  · cases h

theorem Exact.div_val {x y z : Exact} (h : x.div y = some z) : z.val = x.val / y.val := by
  cases y with
  | surd c d =>
    simp only [Exact.div] at h
    split at h
    · cases h
    · next hn =>
      have hn' : ((c : ℝ) * c - 2 * (d * d)) ≠ 0 := by exact_mod_cast hn
      have hfac : ((c : ℝ) + d * Real.sqrt 2) * (c - d * Real.sqrt 2) = c * c - 2 * (d * d) := by
        linear_combination (-(d : ℝ) * d) * sqrt_two_sq
      have hy : ((c : ℝ) + d * Real.sqrt 2) ≠ 0 := by
        intro h0; rw [h0, zero_mul] at hfac; exact hn' hfac.symm
      have hinv : (Exact.surd (c / (c * c - 2 * (d * d))) (-(d / (c * c - 2 * (d * d))))).val
          = ((c : ℝ) + d * Real.sqrt 2)⁻¹ := by
        apply eq_inv_of_mul_eq_one_left
        simp only [Exact.val]; push_cast
        have : ((c : ℝ) / (c * c - 2 * (d * d)) + -(d / (c * c - 2 * (d * d))) * Real.sqrt 2)
            * (c + d * Real.sqrt 2)
            = (((c : ℝ) + d * Real.sqrt 2) * (c - d * Real.sqrt 2)) / (c * c - 2 * (d * d)) := by ring
        rw [this, hfac, div_self hn']
      rw [Exact.mul_val h, hinv]; simp only [Exact.val]; rw [div_eq_mul_inv]
  | piMul q =>
    cases x with
    | surd a b => simp [Exact.div] at h
    | piMul p =>
      simp only [Exact.div] at h
      split at h
      · cases h
      · next hq =>
        cases h
        have hq' : (q : ℝ) ≠ 0 := by exact_mod_cast hq
        have := Real.pi_ne_zero
        simp [Exact.val]; field_simp

theorem sin_int_mul_pi_div_four (k : Int) : Real.sin (k * (Real.pi / 4)) = (Exact.sinOctant k).val := by
  have hk : (k : ℝ) * (Real.pi / 4) = ((k % 8 : Int) : ℝ) * (Real.pi / 4) + ((k / 8 : Int) : ℝ) * (2 * Real.pi) := by
    have h := Int.emod_add_mul_ediv k 8
    have : (k : ℝ) = ((k % 8 : Int) : ℝ) + 8 * ((k / 8 : Int) : ℝ) := by exact_mod_cast h.symm
    rw [this]; ring
  rw [hk, Real.sin_add_int_mul_two_pi]
  have h0 := Int.emod_nonneg k (show (8 : Int) ≠ 0 by decide)
  have h1 := Int.emod_lt_of_pos k (show (0 : Int) < 8 by decide)
  unfold Exact.sinOctant
  generalize k % 8 = r at *
  have s4 := Real.sin_pi_div_four
  have c4 := Real.cos_pi_div_four
  interval_cases r
  · simp [Exact.val]
  · simp [Exact.val, s4]; ring
  · have : ((2 : Int) : ℝ) * (Real.pi / 4) = Real.pi / 2 := by push_cast; ring
    rw [this]; simp [Exact.val]
  · have : ((3 : Int) : ℝ) * (Real.pi / 4) = Real.pi - Real.pi / 4 := by push_cast; ring
    rw [this, Real.sin_pi_sub, s4]; simp [Exact.val]; ring
  · have : ((4 : Int) : ℝ) * (Real.pi / 4) = Real.pi := by push_cast; ring
    rw [this]; simp [Exact.val]
  · have : ((5 : Int) : ℝ) * (Real.pi / 4) = Real.pi / 4 + Real.pi := by push_cast; ring
    rw [this, Real.sin_add_pi, s4]; simp [Exact.val]; ring
  · have : ((6 : Int) : ℝ) * (Real.pi / 4) = Real.pi / 2 + Real.pi := by push_cast; ring
    rw [this, Real.sin_add_pi]; simp [Exact.val]
  · have : ((7 : Int) : ℝ) * (Real.pi / 4) = -(Real.pi / 4) + 2 * Real.pi := by push_cast; ring
    rw [this, Real.sin_add_two_pi, Real.sin_neg, s4]; simp [Exact.val]; ring

theorem Exact.octant?_val {x : Exact} {k : Int} (h : x.octant? = some k) : x.val = k * (Real.pi / 4) := by
  cases x with
  | surd a b =>
    simp only [Exact.octant?] at h
    split at h
    · next hz => cases h; simp [Exact.val, hz.1, hz.2]
    · cases h
  | piMul q =>
    simp only [Exact.octant?] at h
    split at h
    · next hd =>
      cases h
      have hq : ((4 * q).num : Rat) = 4 * q := by
        conv_rhs => rw [← Rat.num_div_den (4 * q), hd]
        simp
      have hq' : (((4 * q).num : Int) : ℝ) = 4 * (q : ℝ) := by exact_mod_cast hq
      rw [hq']; simp only [Exact.val]; ring
    · cases h

theorem Exact.sin_val {x z : Exact} (h : x.sin = some z) : z.val = Real.sin x.val := by
  simp only [Exact.sin, Option.map_eq_some_iff] at h
  obtain ⟨k, hk, rfl⟩ := h
  rw [Exact.octant?_val hk, sin_int_mul_pi_div_four]

theorem Exact.cos_val {x z : Exact} (h : x.cos = some z) : z.val = Real.cos x.val := by
  simp only [Exact.cos, Option.map_eq_some_iff] at h
  obtain ⟨k, hk, rfl⟩ := h
  rw [Exact.octant?_val hk, ← sin_int_mul_pi_div_four, ← Real.sin_add_pi_div_two]
  push_cast; ring_nf

theorem Exact.ratSqrt?_spec {q r : Rat} (h : Exact.ratSqrt? q = some r) : 0 ≤ r ∧ r * r = q := by
  simp only [Exact.ratSqrt?] at h
  split at h
  · cases h
  · split at h
    · next hr => cases h; exact ⟨by positivity, hr⟩
    · cases h

theorem Exact.sqrt_val {x z : Exact} (h : x.sqrt = some z) : z.val = Real.sqrt x.val := by
  cases x with
  | piMul q => cases h
  | surd a b =>
    simp only [Exact.sqrt] at h
    split at h
    · next hb =>
      subst hb
      split at h
      · next r hr =>
        cases h
        obtain ⟨h0, h1⟩ := Exact.ratSqrt?_spec hr
        have : (a : ℝ) = (r : ℝ) * r := by exact_mod_cast h1.symm
        simp [Exact.val, this, Real.sqrt_mul_self (show (0 : ℝ) ≤ r by exact_mod_cast h0)]
      · rw [Option.map_eq_some_iff] at h
        obtain ⟨r, hr, rfl⟩ := h
        obtain ⟨h0, h1⟩ := Exact.ratSqrt?_spec hr
        have hr0 : (0 : ℝ) ≤ r := by exact_mod_cast h0
        have : (a : ℝ) = (r : ℝ) * r * 2 := by
          have : a = r * r * 2 := by rw [h1]; ring
          exact_mod_cast this
        simp [Exact.val, this, Real.sqrt_mul_self hr0]
    · cases h

theorem Exact.pow10_val {x z : Exact} (h : x.pow10 = some z) : z.val = (10 : ℝ) ^ x.val := by
  cases x with
  | piMul q => cases h
  | surd a b =>
    simp only [Exact.pow10] at h
    split at h
    · next hc =>
      obtain ⟨hb, hd, -⟩ := hc
      cases h
      have ha : ((a.num : Int) : ℝ) = (a : ℝ) := by
        have : (a.num : Rat) = a := by
          conv_rhs => rw [← Rat.num_div_den a, hd]
          simp
        exact_mod_cast this
      subst hb
      simp only [Exact.val, Rat.cast_zero, zero_mul, add_zero]
      rw [← ha, Real.rpow_intCast]
      split
      · next h0 =>
        obtain ⟨n, hn⟩ := Int.eq_ofNat_of_zero_le h0
        rw [hn]; simp
      · next h0 =>
        obtain ⟨n, hn⟩ := Int.eq_ofNat_of_zero_le (show 0 ≤ -a.num by omega)
        have : a.num = -(n : Int) := by omega
        rw [this]; simp
    · cases h

/-- The evaluator names the true value. -/
theorem XReal.exact?_sound {e : XReal} : ∀ {x : Exact}, e.exact? = some x → x.val = e.val := by
  induction e with
  | rat q => intro x h; cases h; simp [Exact.val]
  | pi => intro x h; cases h; simp [Exact.val]
  | hostReal n => intro x h; cases h
  | draw s n => intro x h; cases h
  | neg a iha =>
    intro x h
    simp only [XReal.exact?, Option.map_eq_some_iff] at h
    obtain ⟨u, hu, rfl⟩ := h
    rw [Exact.neg_val, iha hu, XReal.val_neg]
  | add a b iha ihb =>
    intro x h
    simp only [XReal.exact?, Option.bind_eq_some_iff] at h
    obtain ⟨u, hu, v, hv, h⟩ := h
    rw [Exact.add_val h, iha hu, ihb hv, XReal.val_add]
  | sub a b iha ihb =>
    intro x h
    simp only [XReal.exact?, Option.bind_eq_some_iff] at h
    obtain ⟨u, hu, v, hv, h⟩ := h
    rw [Exact.add_val h, Exact.neg_val, iha hu, ihb hv, XReal.val_sub, sub_eq_add_neg]
  | mul a b iha ihb =>
    intro x h
    simp only [XReal.exact?] at h
    split at h
    · next u v hu hv => rw [Exact.mul_val h, iha hu, ihb hv, XReal.val_mul]
    · next u hu _ =>
      split at h
      · next hz =>
        cases h; have := iha hu
        subst hz; simp [Exact.val] at this; simp [Exact.val, ← this]
      · cases h
    · next v _ hv =>
      split at h
      · next hz =>
        cases h; have := ihb hv
        subst hz; simp [Exact.val] at this; simp [Exact.val, ← this]
      · cases h
    · cases h
  | div a b iha ihb =>
    intro x h
    simp only [XReal.exact?, Option.bind_eq_some_iff] at h
    obtain ⟨u, hu, v, hv, h⟩ := h
    rw [Exact.div_val h, iha hu, ihb hv, XReal.val_div]
  | sin a iha =>
    intro x h
    simp only [XReal.exact?, Option.bind_eq_some_iff] at h
    obtain ⟨u, hu, h⟩ := h
    rw [Exact.sin_val h, iha hu, XReal.val_sin]
  | cos a iha =>
    intro x h
    simp only [XReal.exact?, Option.bind_eq_some_iff] at h
    obtain ⟨u, hu, h⟩ := h
    rw [Exact.cos_val h, iha hu, XReal.val_cos]
  | sqrt a iha =>
    intro x h
    simp only [XReal.exact?, Option.bind_eq_some_iff] at h
    obtain ⟨u, hu, h⟩ := h
    rw [Exact.sqrt_val h, iha hu, XReal.val_sqrt]
  | pow10 a iha =>
    intro x h
    simp only [XReal.exact?, Option.bind_eq_some_iff] at h
    obtain ⟨u, hu, h⟩ := h
    rw [Exact.pow10_val h, iha hu, XReal.val_pow10]

theorem Exact.toXReal_val (x : Exact) : x.toXReal.val = x.val := by
  cases x with
  | surd a b =>
    simp only [Exact.toXReal]
    split
    · next h => simp [Exact.val, h]
    · split
      · next h => simp [Exact.val, h]
      · simp [Exact.val]
  | piMul q => simp [Exact.toXReal, Exact.val]

/-- Spelling a real in the one way changes no value. -/
@[simp] theorem XReal.norm_val (e : XReal) : e.norm.val = e.val := by
  induction e <;>
    (unfold XReal.norm; split <;> rename_i h <;>
      first
      | (rw [Exact.toXReal_val, XReal.exact?_sound h])
      | simp_all)

@[simp] theorem Cplx.norm_val (z : Cplx) : z.norm.val = z.val := by simp [Cplx.norm, Cplx.val]

/-! ### Comparison and truncation -/

theorem Exact.isPos_iff (x : Exact) : x.isPos = true ↔ 0 < x.val := by
  have hs0 : (0 : ℝ) < Real.sqrt 2 := by positivity
  cases x with
  | piMul q =>
    simp only [Exact.isPos, Exact.val, decide_eq_true_eq]
    rw [mul_pos_iff_of_pos_right Real.pi_pos]; exact_mod_cast Iff.rfl
  | surd a b =>
    simp only [Exact.isPos, Exact.val]
    split
    · next ha =>
      have ha' : (0 : ℝ) ≤ a := by exact_mod_cast ha
      split
      · next hb =>
        have hb' : (0 : ℝ) ≤ b := by exact_mod_cast hb
        rw [decide_eq_true_eq]
        constructor
        · rintro (h | h)
          · have : (0 : ℝ) < a := by exact_mod_cast h
            positivity
          · have : (0 : ℝ) < b := by exact_mod_cast h
            positivity
        · intro h
          by_contra hc
          push Not at hc
          have h1 : (a : ℝ) ≤ 0 := by exact_mod_cast hc.1
          have h2 : (b : ℝ) ≤ 0 := by exact_mod_cast hc.2
          nlinarith
      · next hb =>
        have hb' : (b : ℝ) < 0 := by exact_mod_cast not_le.mp hb
        rw [decide_eq_true_eq]
        have key : (2 * (b * b) < a * a) ↔ ((-(b : ℝ) * Real.sqrt 2) ^ 2 < (a : ℝ) ^ 2) := by
          rw [show (-(b : ℝ) * Real.sqrt 2) ^ 2 = 2 * (b * b) by
            linear_combination ((b : ℝ) * b) * sqrt_two_sq, sq]
          exact_mod_cast Iff.rfl
        rw [key, sq_lt_sq₀ (by nlinarith) ha']
        constructor <;> intro h <;> linarith
    · next ha =>
      have ha' : (a : ℝ) < 0 := by exact_mod_cast not_le.mp ha
      split
      · next hb =>
        have hb' : (0 : ℝ) ≤ b := by exact_mod_cast hb
        rw [decide_eq_true_eq]
        have key : (a * a < 2 * (b * b)) ↔ ((-(a : ℝ)) ^ 2 < ((b : ℝ) * Real.sqrt 2) ^ 2) := by
          rw [show ((b : ℝ) * Real.sqrt 2) ^ 2 = 2 * (b * b) by
            linear_combination ((b : ℝ) * b) * sqrt_two_sq, neg_sq, sq]
          exact_mod_cast Iff.rfl
        rw [key, sq_lt_sq₀ (by linarith) (by positivity)]
        constructor <;> intro h <;> linarith
      · next hb =>
        have hb' : (b : ℝ) < 0 := by exact_mod_cast not_le.mp hb
        simp only [Bool.false_eq_true, false_iff, not_lt]
        nlinarith

/-- `isPos` is the exact comparison `> 0` (R10). -/
@[simp] theorem XReal.isPos_iff (x : XReal) : x.isPos = true ↔ 0 < x.val := by
  unfold XReal.isPos
  split
  · next v h => rw [Exact.isPos_iff, XReal.exact?_sound h]
  · simp

@[simp] theorem XReal.isPos_eq_false_iff (x : XReal) : x.isPos = false ↔ x.val ≤ 0 := by
  rw [← Bool.not_eq_true, XReal.isPos_iff, not_lt]

/-- `isNeg` is the exact comparison `< 0` (R10). -/
@[simp] theorem XReal.isNeg_iff (x : XReal) : x.isNeg = true ↔ x.val < 0 := by
  simp [XReal.isNeg]

@[simp] theorem XReal.isNeg_eq_false_iff (x : XReal) : x.isNeg = false ↔ 0 ≤ x.val := by
  rw [← Bool.not_eq_true, XReal.isNeg_iff, not_lt]

/-- `floorNat` is the exact floor (R28). -/
theorem XReal.floorNat_eq (x : XReal) : x.floorNat = ⌊x.val⌋₊ := by
  unfold XReal.floorNat
  split
  · next a b h =>
    split
    · next hb =>
      have := XReal.exact?_sound h
      rw [← this, hb]
      simp only [Exact.val, Rat.cast_zero, zero_mul, add_zero]
      rw [← Int.floor_toNat, Rat.floor_cast]; rfl
    · exact (floorOracle x).property
  · exact (floorOracle x).property

/-- A comparison depends on the value alone. -/
theorem XReal.isPos_congr {x y : XReal} (h : x.val = y.val) : x.isPos = y.isPos := by
  rw [Bool.eq_iff_iff, XReal.isPos_iff, XReal.isPos_iff, h]

theorem XReal.isNeg_congr {x y : XReal} (h : x.val = y.val) : x.isNeg = y.isNeg := by
  rw [Bool.eq_iff_iff, XReal.isNeg_iff, XReal.isNeg_iff, h]

end Sys2Proof
end

