-- ==== Sys2Proof/Laws/State.lean ====
section
/-! SUPPORT. One lemma per field per update of the state, so that no later proof unfolds a record update. -/
namespace Sys2Proof.Machine

/-! ### State.accept -/

@[simp] theorem State.accept_cfg (s : State) (f : Frame) : (s.accept f).cfg = s.cfg := rfl
@[simp] theorem State.accept_err (s : State) (f : Frame) : (s.accept f).err = s.err := rfl
@[simp] theorem State.accept_sticky (s : State) (f : Frame) : (s.accept f).sticky = s.sticky := rfl
@[simp] theorem State.accept_noiseSeed (s : State) (f : Frame) : (s.accept f).noiseSeed = s.noiseSeed := rfl
@[simp] theorem State.accept_drawsTaken (s : State) (f : Frame) : (s.accept f).drawsTaken = s.drawsTaken := rfl
@[simp] theorem State.accept_maxSeqLen (s : State) (f : Frame) : (s.accept f).maxSeqLen = s.maxSeqLen := rfl
@[simp] theorem State.accept_current (s : State) (f : Frame) : (s.accept f).current = some f := rfl
@[simp] theorem State.accept_requests (s : State) (f : Frame) : (s.accept f).requests = s.requests := rfl
@[simp] theorem State.accept_reply (s : State) (f : Frame) : (s.accept f).reply = none := rfl

/-! ### State.raise -/

@[simp] theorem State.raise_cfg (s : State) (e : ErrCode) : (s.raise e).cfg = s.cfg := rfl
@[simp] theorem State.raise_err (s : State) (e : ErrCode) : (s.raise e).err = e.code := rfl
@[simp] theorem State.raise_sticky (s : State) (e : ErrCode) : (s.raise e).sticky = true := rfl
@[simp] theorem State.raise_noiseSeed (s : State) (e : ErrCode) : (s.raise e).noiseSeed = s.noiseSeed := rfl
@[simp] theorem State.raise_drawsTaken (s : State) (e : ErrCode) : (s.raise e).drawsTaken = s.drawsTaken := rfl
@[simp] theorem State.raise_maxSeqLen (s : State) (e : ErrCode) : (s.raise e).maxSeqLen = s.maxSeqLen := rfl
@[simp] theorem State.raise_current (s : State) (e : ErrCode) : (s.raise e).current = none := rfl
@[simp] theorem State.raise_requests (s : State) (e : ErrCode) : (s.raise e).requests = s.requests := rfl
@[simp] theorem State.raise_reply (s : State) (e : ErrCode) : (s.raise e).reply = none := rfl

/-! ### State.complete -/

@[simp] theorem State.complete_cfg (s : State) (r : Option Reply) : (s.complete r).cfg = s.cfg := rfl
@[simp] theorem State.complete_err (s : State) (r : Option Reply) : (s.complete r).err = 0 := rfl
@[simp] theorem State.complete_sticky (s : State) (r : Option Reply) : (s.complete r).sticky = s.sticky := rfl
@[simp] theorem State.complete_noiseSeed (s : State) (r : Option Reply) : (s.complete r).noiseSeed = s.noiseSeed := rfl
@[simp] theorem State.complete_drawsTaken (s : State) (r : Option Reply) : (s.complete r).drawsTaken = s.drawsTaken := rfl
@[simp] theorem State.complete_maxSeqLen (s : State) (r : Option Reply) : (s.complete r).maxSeqLen = s.maxSeqLen := rfl
@[simp] theorem State.complete_current (s : State) (r : Option Reply) : (s.complete r).current = none := rfl
@[simp] theorem State.complete_requests (s : State) (r : Option Reply) : (s.complete r).requests = s.requests := rfl
@[simp] theorem State.complete_reply (s : State) (r : Option Reply) : (s.complete r).reply = r := rfl

/-! ### State.takeDraws -/

@[simp] theorem State.takeDraws_cfg (s : State) (k : Nat) : (s.takeDraws k).cfg = s.cfg := rfl
@[simp] theorem State.takeDraws_err (s : State) (k : Nat) : (s.takeDraws k).err = s.err := rfl
@[simp] theorem State.takeDraws_sticky (s : State) (k : Nat) : (s.takeDraws k).sticky = s.sticky := rfl
@[simp] theorem State.takeDraws_noiseSeed (s : State) (k : Nat) : (s.takeDraws k).noiseSeed = s.noiseSeed := rfl
@[simp] theorem State.takeDraws_drawsTaken (s : State) (k : Nat) : (s.takeDraws k).drawsTaken = s.drawsTaken + k := rfl
@[simp] theorem State.takeDraws_maxSeqLen (s : State) (k : Nat) : (s.takeDraws k).maxSeqLen = s.maxSeqLen := rfl
@[simp] theorem State.takeDraws_current (s : State) (k : Nat) : (s.takeDraws k).current = s.current := rfl
@[simp] theorem State.takeDraws_requests (s : State) (k : Nat) : (s.takeDraws k).requests = s.requests := rfl
@[simp] theorem State.takeDraws_reply (s : State) (k : Nat) : (s.takeDraws k).reply = s.reply := rfl

/-! ### State.readStatus -/

@[simp] theorem State.readStatus_cfg (s : State) : s.readStatus.cfg = s.cfg := rfl
@[simp] theorem State.readStatus_err (s : State) : s.readStatus.err = s.err := rfl
@[simp] theorem State.readStatus_sticky (s : State) : s.readStatus.sticky = s.sticky := rfl
@[simp] theorem State.readStatus_noiseSeed (s : State) : s.readStatus.noiseSeed = s.noiseSeed := rfl
@[simp] theorem State.readStatus_drawsTaken (s : State) : s.readStatus.drawsTaken = s.drawsTaken := rfl
@[simp] theorem State.readStatus_maxSeqLen (s : State) : s.readStatus.maxSeqLen = s.maxSeqLen := rfl
@[simp] theorem State.readStatus_current (s : State) : s.readStatus.current = s.current := rfl
@[simp] theorem State.readStatus_requests (s : State) : s.readStatus.requests = s.requests := rfl
@[simp] theorem State.readStatus_reply (s : State) : s.readStatus.reply = some (.status s.status) := rfl

/-! ### State.assertReset -/

@[simp] theorem State.assertReset_cfg (s : State) : s.assertReset.cfg = none := rfl
@[simp] theorem State.assertReset_err (s : State) : s.assertReset.err = 0 := rfl
@[simp] theorem State.assertReset_sticky (s : State) : s.assertReset.sticky = false := rfl
@[simp] theorem State.assertReset_noiseSeed (s : State) : s.assertReset.noiseSeed = s.noiseSeed + 1 := rfl
@[simp] theorem State.assertReset_drawsTaken (s : State) : s.assertReset.drawsTaken = 0 := rfl
@[simp] theorem State.assertReset_maxSeqLen (s : State) : s.assertReset.maxSeqLen = s.maxSeqLen := rfl
@[simp] theorem State.assertReset_current (s : State) : s.assertReset.current = none := rfl
@[simp] theorem State.assertReset_requests (s : State) : s.assertReset.requests = s.requests := rfl
@[simp] theorem State.assertReset_reply (s : State) : s.assertReset.reply = none := rfl

/-! ### The derived views -/

@[simp] theorem State.operands_accept (s : State) (f : Frame) : (s.accept f).operands = f.operands := rfl

@[simp] theorem State.tooLong_accept (s : State) (f : Frame) (n : Nat) :
    (s.accept f).tooLong n = s.tooLong n := rfl

@[simp] theorem State.tooLong_raise (s : State) (e : ErrCode) (n : Nat) :
    (s.raise e).tooLong n = s.tooLong n := rfl

@[simp] theorem State.tooLong_complete (s : State) (r : Option Reply) (n : Nat) :
    (s.complete r).tooLong n = s.tooLong n := rfl

@[simp] theorem State.tooLong_takeDraws (s : State) (k n : Nat) : (s.takeDraws k).tooLong n = s.tooLong n := rfl

theorem State.tooLong_eq_false_of_none {s : State} (h : s.maxSeqLen = none) (n : Nat) : s.tooLong n = false := by
  simp [State.tooLong, h]

theorem State.tooLong_eq_false_iff (s : State) (n : Nat) :
    s.tooLong n = false ↔ ∀ m, s.maxSeqLen = some m → n ≤ m := by
  unfold State.tooLong; split <;> simp_all

/-- Running a command reads only what the spec lets it read (R37): the reply of an earlier command plays no part. -/
theorem State.tooLong_mono {s : State} {m n : Nat} (h : s.tooLong n = false) (hmn : m ≤ n) : s.tooLong m = false := by
  rw [State.tooLong_eq_false_iff] at *
  exact fun k hk => le_trans hmn (h k hk)

@[simp] theorem State.draws_accept (s : State) (f : Frame) (k : Nat) : (s.accept f).draws k = s.draws k := rfl

@[simp] theorem State.draws_length (s : State) (k : Nat) : (s.draws k).length = k := by simp [State.draws]

@[simp] theorem State.assertReset_status (s : State) : s.assertReset.status = 0 := by
  simp [State.status, State.cfgd]

@[simp] theorem State.reset_status : State.reset.status = 0 := rfl

@[simp] theorem ErrCode.code_ok : ErrCode.ok.code = 0 := rfl

@[simp] theorem ErrCode.code_eq_zero_iff (e : ErrCode) : e.code = 0#3 ↔ e = .ok := by cases e <;> decide

theorem ErrCode.code_injective {e e' : ErrCode} (h : e.code = e'.code) : e = e' := by
  cases e <;> cases e' <;> first | rfl | (revert h; decide)

end Sys2Proof.Machine
end

