-- ==== Sys2Proof/Laws/Ops.lean ====
section
/-! SUPPORT. For each shared operation, and for each command, one lemma that says everything it can do. -/
namespace Sys2Proof.Machine

variable {s t : State}

/-! ### Frames -/

theorem DataFrame.of_complete (s : State) (r : Option Reply) : DataFrame 0 s (s.complete r) := by
  constructor <;> rfl

theorem DataFrame.of_takeDraws (s : State) (k : Nat) (r : Option Reply) :
    DataFrame k s ((s.takeDraws k).complete r) := by constructor <;> rfl

theorem ErrorFrame.of_raise (s : State) (e : ErrCode) : ErrorFrame e s (s.raise e) := by constructor <;> rfl

theorem ErrorFrame.of_accept_raise (s : State) (f : Frame) (e : ErrCode) :
    ErrorFrame e s ((s.accept f).raise e) := by constructor <;> rfl

/-! ### Completion -/

theorem deliverBits_next {b : List Bit} (h : deliverBits s b = .next t) :
    s.tooLong b.length = false ∧ t = s.complete (some (.bits b)) := by
  unfold deliverBits at h
  split at h
  · cases h
  · next hl => exact ⟨by simpa using hl, by cases h; rfl⟩

theorem deliverReals_next {x : List XReal} (h : deliverReals s x = .next t) :
    s.tooLong x.length = false ∧ t = s.complete (some (.reals (x.map XReal.norm))) := by
  unfold deliverReals at h
  split at h
  · cases h
  · next hl => exact ⟨by simpa using hl, by cases h; rfl⟩

theorem deliverCplx_next {z : List Cplx} (h : deliverCplx s z = .next t) :
    s.tooLong z.length = false ∧ t = s.complete (some (.cplx (z.map Cplx.norm))) := by
  unfold deliverCplx at h
  split at h
  · cases h
  · next hl => exact ⟨by simpa using hl, by cases h; rfl⟩

theorem deliverBits_of_fits {b : List Bit} (h : s.tooLong b.length = false) :
    deliverBits s b = .next (s.complete (some (.bits b))) := by simp [deliverBits, h]

theorem deliverReals_of_fits {x : List XReal} (h : s.tooLong x.length = false) :
    deliverReals s x = .next (s.complete (some (.reals (x.map XReal.norm)))) := by simp [deliverReals, h]

theorem deliverCplx_of_fits {z : List Cplx} (h : s.tooLong z.length = false) :
    deliverCplx s z = .next (s.complete (some (.cplx (z.map Cplx.norm)))) := by simp [deliverCplx, h]

theorem deliverBits_of_tooLong {b : List Bit} (h : s.tooLong b.length = true) :
    deliverBits s b = .refused (.resultTooLong b.length) := by simp [deliverBits, h]

theorem deliverReals_of_tooLong {x : List XReal} (h : s.tooLong x.length = true) :
    deliverReals s x = .refused (.resultTooLong x.length) := by simp [deliverReals, h]

theorem deliverCplx_of_tooLong {z : List Cplx} (h : s.tooLong z.length = true) :
    deliverCplx s z = .refused (.resultTooLong z.length) := by simp [deliverCplx, h]

/-! ### Step 2 of the command cycle: the operand's shape -/

theorem withBits_of_bits {b : List Bit} {body : List Bit → Out} (ho : s.operands = [.bits b])
    (hl : s.tooLong b.length = false) : withBits s body = body b := by simp [withBits, ho, hl]

theorem withReals_of_reals {x : List XReal} {body : List XReal → Out} (ho : s.operands = [.reals x])
    (hl : s.tooLong x.length = false) : withReals s body = body x := by simp [withReals, ho, hl]

theorem withCplx_of_cplx {z : List Cplx} {body : List Cplx → Out} (ho : s.operands = [.cplx z])
    (hl : s.tooLong z.length = false) : withCplx s body = body z := by simp [withCplx, ho, hl]

theorem withCfgRec_of_cfg {r : CfgRec} {body : CfgRec → Out} (ho : s.operands = [.cfg r]) :
    withCfgRec s body = body r := by simp [withCfgRec, ho]

/-- What step 2 does with a BITSEQ command: it runs the body on the operand, refuses it, or raises. -/
theorem withBits_cases (s : State) (body : List Bit → Out) :
    (∃ b, s.operands = [.bits b] ∧ s.tooLong b.length = false ∧ withBits s body = body b) ∨
    (∃ b, s.operands = [.bits b] ∧ s.tooLong b.length = true ∧
      withBits s body = .refused (.operandTooLong b.length)) ∨
    ((∀ b, s.operands ≠ [.bits b]) ∧ withBits s body = raised s .illegalCommand) := by
  unfold withBits
  split
  · next b hb =>
    cases hl : s.tooLong b.length
    · exact .inl ⟨b, hb, hl, by simp⟩
    · exact .inr (.inl ⟨b, hb, hl, by simp⟩)
  · next hb => exact .inr (.inr ⟨hb, rfl⟩)

theorem withReals_cases (s : State) (body : List XReal → Out) :
    (∃ x, s.operands = [.reals x] ∧ s.tooLong x.length = false ∧ withReals s body = body x) ∨
    (∃ x, s.operands = [.reals x] ∧ s.tooLong x.length = true ∧
      withReals s body = .refused (.operandTooLong x.length)) ∨
    ((∀ x, s.operands ≠ [.reals x]) ∧ withReals s body = raised s .illegalCommand) := by
  unfold withReals
  split
  · next x hx =>
    cases hl : s.tooLong x.length
    · exact .inl ⟨x, hx, hl, by simp⟩
    · exact .inr (.inl ⟨x, hx, hl, by simp⟩)
  · next hx => exact .inr (.inr ⟨hx, rfl⟩)

theorem withCplx_cases (s : State) (body : List Cplx → Out) :
    (∃ z, s.operands = [.cplx z] ∧ s.tooLong z.length = false ∧ withCplx s body = body z) ∨
    (∃ z, s.operands = [.cplx z] ∧ s.tooLong z.length = true ∧
      withCplx s body = .refused (.operandTooLong z.length)) ∨
    ((∀ z, s.operands ≠ [.cplx z]) ∧ withCplx s body = raised s .illegalCommand) := by
  unfold withCplx
  split
  · next z hz =>
    cases hl : s.tooLong z.length
    · exact .inl ⟨z, hz, hl, by simp⟩
    · exact .inr (.inl ⟨z, hz, hl, by simp⟩)
  · next hz => exact .inr (.inr ⟨hz, rfl⟩)

theorem withCfgRec_cases (s : State) (body : CfgRec → Out) :
    (∃ r, s.operands = [.cfg r] ∧ withCfgRec s body = body r) ∨
    ((∀ r, s.operands ≠ [.cfg r]) ∧ withCfgRec s body = raised s .illegalCommand) := by
  unfold withCfgRec
  split
  · next r hr => exact .inl ⟨r, hr, rfl⟩
  · next hr => exact .inr ⟨hr, rfl⟩

/-! ### Step 3: the configuration -/

theorem withCfg_of_some {c : Cfg} {body : Cfg → Out} (h : s.cfg = some c) : withCfg s body = body c := by
  simp [withCfg, h]

theorem withCfg_of_none {body : Cfg → Out} (h : s.cfg = none) : withCfg s body = raised s .notConfigured := by
  simp [withCfg, h]

theorem withCfg_cases (s : State) (body : Cfg → Out) :
    (∃ c, s.cfg = some c ∧ withCfg s body = body c) ∨
    (s.cfg = none ∧ withCfg s body = raised s .notConfigured) := by
  cases h : s.cfg with
  | none => exact .inr ⟨rfl, withCfg_of_none h⟩
  | some c => exact .inl ⟨c, rfl, withCfg_of_some h⟩

/-! ### The checks of CONFIGURE -/

/-- CONFIGURE's checks are the 'legal values' of the record, over the real numbers (R64, R81). -/
theorem cfgRecLegal_iff (r : CfgRec) :
    cfgRecLegal r = true ↔
      reservedField r.mode = 0 ∧ (schemeField r.mode).toNat ≤ 1 ∧ 0 < r.fc.val ∧ 0 < r.fs.val ∧ 0 < r.tb.val ∧
        1 ≤ ⌊r.tb.val * r.fs.val⌋₊ := by
  simp only [cfgRecLegal, samplesPerSymbol, Bool.and_eq_true, beq_iff_eq, decide_eq_true_eq, XReal.isPos_iff,
    XReal.floorNat_eq, XReal.val_mul, and_assoc]

theorem Cfg.ns_eq (c : Cfg) : c.ns = ⌊c.tb.val * c.fs.val⌋₊ := by
  simp [Cfg.ns, samplesPerSymbol, XReal.floorNat_eq]

theorem cfgOfRec_legal {r : CfgRec} (h : cfgRecLegal r = true) : (cfgOfRec r).Legal := by
  obtain ⟨-, h1, h2, h3, h4, h5⟩ := (cfgRecLegal_iff r).mp h
  exact ⟨h1, h2, h3, h4, by rw [Cfg.ns_eq]; exact h5⟩

/-! ### What a command can do -/

/-- The three ways a command goes on to a next state: it raises, it is a successful CONFIGURE, or it is a data
command that delivers a result. -/
inductive Effect (i : Instr) (s t : State) : Prop where
  | raises (e : ErrCode) (he : e ≠ .ok) (he' : e ≠ .lengthMismatch)
      (hc : e = .notConfigured → readsCfg i = true ∧ s.cfg = none) (ht : t = s.raise e)
  | configures (hi : i = .configure) (r : CfgRec) (ho : s.operands = [.cfg r]) (hr : cfgRecLegal r = true)
      (ht : t = { s with cfg := some (cfgOfRec r) }.complete none)
  | delivers (hi : i ≠ .configure) (r : Reply) (hr : r.isResult = true) (hl : s.tooLong r.length = false)
      (hc : readsCfg i = true → s.cfg ≠ none)
      (ht : t = (s.takeDraws (drawCount i s.operands)).complete (some r))

theorem Effect.of_raised {i : Instr} {e : ErrCode} (h : raised s e = .next t) (he : e ≠ .ok)
    (he' : e ≠ .lengthMismatch) (hc : e = .notConfigured → readsCfg i = true ∧ s.cfg = none) : Effect i s t := by
  cases h; exact .raises e he he' hc rfl

theorem Effect.of_deliverBits {i : Instr} {b : List Bit} (h : deliverBits s b = .next t) (hi : i ≠ .configure)
    (hc : readsCfg i = true → s.cfg ≠ none) (hk : drawCount i s.operands = 0) : Effect i s t := by
  obtain ⟨hl, rfl⟩ := deliverBits_next h
  exact .delivers hi (.bits b) rfl hl hc (by rw [hk]; rfl)

theorem Effect.of_deliverReals {i : Instr} {k : Nat} {x : List XReal}
    (h : deliverReals (s.takeDraws k) x = .next t) (hi : i ≠ .configure)
    (hc : readsCfg i = true → s.cfg ≠ none) (hk : drawCount i s.operands = k) : Effect i s t := by
  obtain ⟨hl, rfl⟩ := deliverReals_next h
  exact .delivers hi (.reals (x.map XReal.norm)) rfl (by simpa [Reply.length] using hl) hc (by rw [hk])

theorem Effect.of_deliverCplx {i : Instr} {k : Nat} {z : List Cplx}
    (h : deliverCplx (s.takeDraws k) z = .next t) (hi : i ≠ .configure)
    (hc : readsCfg i = true → s.cfg ≠ none) (hk : drawCount i s.operands = k) : Effect i s t := by
  obtain ⟨hl, rfl⟩ := deliverCplx_next h
  exact .delivers hi (.cplx (z.map Cplx.norm)) rfl (by simpa [Reply.length] using hl) hc (by rw [hk])

/-- Everything a command can do when it answers a next state. -/
theorem exec_effect {i : Instr} (h : exec i s = .next t) : Effect i s t := by
  cases i with
  | configure =>
    simp only [exec, execConfigure] at h
    rcases withCfgRec_cases s _ with ⟨r, ho, hw⟩ | ⟨-, hw⟩ <;> rw [hw] at h
    · split at h
      · next hr => cases h; exact .configures rfl r ho hr rfl
      · exact .of_raised h (by decide) (by decide) (by simp)
    · exact .of_raised h (by decide) (by decide) (by simp)
  | hamEnc =>
    simp only [exec, execHamEnc] at h
    rcases withBits_cases s _ with ⟨b, ho, -, hw⟩ | ⟨b, -, -, hw⟩ | ⟨-, hw⟩ <;> rw [hw] at h
    · split at h
      · exact .of_deliverBits h (by decide) (by simp [readsCfg]) (by simp [drawCount])
      · exact .of_raised h (by decide) (by decide) (by simp)
    · cases h
    · exact .of_raised h (by decide) (by decide) (by simp)
  | hamDec =>
    simp only [exec, execHamDec] at h
    rcases withBits_cases s _ with ⟨b, ho, -, hw⟩ | ⟨b, -, -, hw⟩ | ⟨-, hw⟩ <;> rw [hw] at h
    · split at h
      · exact .of_deliverBits h (by decide) (by simp [readsCfg]) (by simp [drawCount])
      · exact .of_raised h (by decide) (by decide) (by simp)
    · cases h
    · exact .of_raised h (by decide) (by decide) (by simp)
  | bpskMod =>
    simp only [exec, execBpskMod] at h
    rcases withBits_cases s _ with ⟨b, ho, -, hw⟩ | ⟨b, -, -, hw⟩ | ⟨-, hw⟩ <;> rw [hw] at h
    · rcases withCfg_cases s _ with ⟨c, hc, hw⟩ | ⟨hc, hw⟩ <;> rw [hw] at h
      · exact .of_deliverReals (k := 0) h (by decide) (by simp [hc]) (by simp [drawCount])
      · exact .of_raised h (by decide) (by decide) (by simp [readsCfg, hc])
    · cases h
    · exact .of_raised h (by decide) (by decide) (by simp)
  | qpskMod =>
    simp only [exec, execQpskMod] at h
    rcases withBits_cases s _ with ⟨b, ho, -, hw⟩ | ⟨b, -, -, hw⟩ | ⟨-, hw⟩ <;> rw [hw] at h
    · rcases withCfg_cases s _ with ⟨c, hc, hw⟩ | ⟨hc, hw⟩ <;> rw [hw] at h
      · split at h
        · exact .of_deliverReals (k := 0) h (by decide) (by simp [hc]) (by simp [drawCount])
        · exact .of_raised h (by decide) (by decide) (by simp)
      · exact .of_raised h (by decide) (by decide) (by simp [readsCfg, hc])
    · cases h
    · exact .of_raised h (by decide) (by decide) (by simp)
  | bpskDem =>
    simp only [exec, execBpskDem] at h
    rcases withReals_cases s _ with ⟨x, ho, -, hw⟩ | ⟨x, -, -, hw⟩ | ⟨-, hw⟩ <;> rw [hw] at h
    · rcases withCfg_cases s _ with ⟨c, hc, hw⟩ | ⟨hc, hw⟩ <;> rw [hw] at h
      · exact .of_deliverBits h (by decide) (by simp [hc]) (by simp [drawCount])
      · exact .of_raised h (by decide) (by decide) (by simp [readsCfg, hc])
    · cases h
    · exact .of_raised h (by decide) (by decide) (by simp)
  | qpskDem =>
    simp only [exec, execQpskDem] at h
    rcases withReals_cases s _ with ⟨x, ho, -, hw⟩ | ⟨x, -, -, hw⟩ | ⟨-, hw⟩ <;> rw [hw] at h
    · rcases withCfg_cases s _ with ⟨c, hc, hw⟩ | ⟨hc, hw⟩ <;> rw [hw] at h
      · exact .of_deliverBits h (by decide) (by simp [hc]) (by simp [drawCount])
      · exact .of_raised h (by decide) (by decide) (by simp [readsCfg, hc])
    · cases h
    · exact .of_raised h (by decide) (by decide) (by simp)
  | awgnR =>
    simp only [exec, execAwgnR] at h
    rcases withReals_cases s _ with ⟨x, ho, -, hw⟩ | ⟨x, -, -, hw⟩ | ⟨-, hw⟩ <;> rw [hw] at h
    · rcases withCfg_cases s _ with ⟨c, hc, hw⟩ | ⟨hc, hw⟩ <;> rw [hw] at h
      · exact .of_deliverReals h (by decide) (by simp [hc]) (by simp [drawCount, ho, Operand.length])
      · exact .of_raised h (by decide) (by decide) (by simp [readsCfg, hc])
    · cases h
    · exact .of_raised h (by decide) (by decide) (by simp)
  | awgnC =>
    simp only [exec, execAwgnC] at h
    rcases withCplx_cases s _ with ⟨z, ho, -, hw⟩ | ⟨z, -, -, hw⟩ | ⟨-, hw⟩ <;> rw [hw] at h
    · rcases withCfg_cases s _ with ⟨c, hc, hw⟩ | ⟨hc, hw⟩ <;> rw [hw] at h
      · exact .of_deliverCplx h (by decide) (by simp [hc]) (by simp [drawCount, ho, Operand.length])
      · exact .of_raised h (by decide) (by decide) (by simp [readsCfg, hc])
    · cases h
    · exact .of_raised h (by decide) (by decide) (by simp)

/-! ### What a step can do -/

theorem serveCommand_of_ok {f : Frame} {i : Instr} (h : decode f.op = .ok i) :
    serveCommand s f = exec i (s.accept f) := by simp [serveCommand, h]

theorem serveCommand_of_reserved {f : Frame} {e : Reserved} (h : decode f.op = .error e) :
    serveCommand s f = raised (s.accept f) .illegalCommand := by simp [serveCommand, h]

theorem step_of_nil (h : s.requests = []) : step s = .next s := by simp [step, h]

theorem step_of_cons {r : Request} {rest : List Request} (h : s.requests = r :: rest) :
    step s = serve { s with requests := rest } r := by simp [step, h]

theorem step_of_issues {f : Frame} {rest : List Request} (h : s.issues f rest) :
    step s = serveCommand { s with requests := rest } f := step_of_cons h

/-- Everything a step can do when it answers a next state. -/
theorem step_next_cases (h : step s = .next t) :
    (s.requests = [] ∧ t = s) ∨
    (∃ f rest i, s.requests = .command f :: rest ∧ decode f.op = .ok i ∧
      Effect i ({ s with requests := rest }.accept f) t) ∨
    (∃ f rest e, s.requests = .command f :: rest ∧ decode f.op = .error e ∧
      t = ({ s with requests := rest }.accept f).raise .illegalCommand) ∨
    (∃ f rest, s.requests = .commandThenReset f :: rest ∧ t = { s with requests := rest }.assertReset) ∨
    (∃ rest, s.requests = .reset :: rest ∧ t = { s with requests := rest }.assertReset) ∨
    (∃ rest, s.requests = .readStatus :: rest ∧ t = { s with requests := rest }.readStatus) ∨
    (∃ r rest c, s.requests = .readCfg r :: rest ∧ s.cfg = some c ∧
      t = { s with requests := rest, reply := some (cfgRegValue c r) }) := by
  cases hr : s.requests with
  | nil => rw [step_of_nil hr] at h; cases h; exact .inl ⟨rfl, rfl⟩
  | cons r rest =>
    rw [step_of_cons hr] at h
    cases r with
    | command f =>
      simp only [serve] at h
      cases hd : decode f.op with
      | ok i =>
        rw [serveCommand_of_ok hd] at h
        exact .inr (.inl ⟨f, rest, i, rfl, hd, exec_effect h⟩)
      | error e =>
        rw [serveCommand_of_reserved hd] at h
        cases h
        exact .inr (.inr (.inl ⟨f, rest, e, rfl, hd, rfl⟩))
    | commandThenReset f =>
      cases h; exact .inr (.inr (.inr (.inl ⟨f, rest, rfl, rfl⟩)))
    | reset => cases h; exact .inr (.inr (.inr (.inr (.inl ⟨rest, rfl, rfl⟩))))
    | readStatus => cases h; exact .inr (.inr (.inr (.inr (.inr (.inl ⟨rest, rfl, rfl⟩)))))
    | readCfg r =>
      simp only [serve, readCfg] at h
      split at h
      · next c hc =>
        cases h
        exact .inr (.inr (.inr (.inr (.inr (.inr ⟨r, rest, c, rfl, hc, rfl⟩)))))
      · cases h

end Sys2Proof.Machine
end

