-- ==== Sys2Proof/Laws/Channel.lean ====
section
/-! SUPPORT. The channel model over the real numbers. -/
namespace Sys2Proof.Machine

theorem sum_map_eq_sum_range {α : Type} (l : List α) (d : α) (f : α → ℝ) :
    (l.map f).sum = ∑ n ∈ Finset.range l.length, f (l.getD n d) := by
  induction l with
  | nil => simp
  | cons a as ih => rw [List.length_cons, Finset.sum_range_succ']; simp [ih, add_comm]

/-- The mean squared magnitude of a real sequence is its signal power (R171). -/
theorem meanOf_realPower_val (x : List XReal) : (meanOf (x.map realPower)).val = signalPower x := by
  have h : ((x.map realPower).map XReal.val) = x.map fun a => a.val ^ 2 := by
    simp [realPower, Function.comp_def, sq]
  simp only [meanOf, XReal.val_div, XReal.val_sum, XReal.val_ofNat, List.length_map, signalPower, valAt, h]
  rw [sum_map_eq_sum_range x (.rat 0)]

/-- The mean squared magnitude of a complex sequence is its signal power (R171). -/
theorem meanOf_cplxPower_val (z : List Cplx) : (meanOf (z.map cplxPower)).val = signalPowerCplx z := by
  have h : ((z.map cplxPower).map XReal.val) = z.map fun v => v.re.val ^ 2 + v.im.val ^ 2 := by
    simp [cplxPower, Function.comp_def, sq]
  simp only [meanOf, XReal.val_div, XReal.val_sum, XReal.val_ofNat, List.length_map, signalPowerCplx, cplxAt, h]
  rw [sum_map_eq_sum_range z ⟨.rat 0, .rat 0⟩]

/-- The noise power formula (R172). -/
theorem noisePower_val (c : Cfg) (p : XReal) : (noisePower c p).val = noisePowerOf c p.val := by
  simp [noisePower, noisePowerOf]

theorem signalPower_nonneg (x : List XReal) : 0 ≤ signalPower x := by
  unfold signalPower; positivity

theorem signalPowerCplx_nonneg (z : List Cplx) : 0 ≤ signalPowerCplx z := by
  unfold signalPowerCplx; positivity

@[simp] theorem awgnReal_length (c : Cfg) (x g : List XReal) (h : g.length = x.length) :
    (awgnReal c x g).length = x.length := by simp [awgnReal, h]

@[simp] theorem awgnCplx_length (c : Cfg) (z : List Cplx) (g h : List XReal) (hg : g.length = z.length)
    (hh : h.length = z.length) : (awgnCplx c z g h).length = z.length := by simp [awgnCplx, hg, hh]

theorem draws_getElem? (s : State) (k n : Nat) (h : n < k) :
    (s.draws k)[n]? = some (.draw s.noiseSeed (s.drawsTaken + n)) := by
  simp [State.draws, h]

end Sys2Proof.Machine
end

