-- ==== Sys2Proof/Laws/Hamming.lean ====
section
/-! SUPPORT. The channel coder block by block: the matrices written out as equations, and how the two commands
unfold one block at a time. -/
namespace Sys2Proof.Machine

/-! ### Elements and blocks of a bit sequence -/

@[simp] theorem bitAt_nil (n : Nat) : bitAt [] n = false := by simp [bitAt]
@[simp] theorem bitAt_cons_zero (x : Bit) (b : List Bit) : bitAt (x :: b) 0 = x := rfl
@[simp] theorem bitAt_cons_succ (x : Bit) (b : List Bit) (n : Nat) : bitAt (x :: b) (n + 1) = bitAt b n := rfl

theorem eq_of_bitAt {a b : List Bit} (hl : a.length = b.length) (h : ∀ n < a.length, bitAt a n = bitAt b n) :
    a = b := by
  apply List.ext_getElem hl
  intro n h1 h2
  simpa [bitAt, List.getD, h1, h2] using h n h1

theorem blockAt_zero_append {w : Nat} {a b : List Bit} (h : a.length = w) : blockAt w 0 (a ++ b) = a := by
  subst h; simp [blockAt]

theorem blockAt_succ_append {w k : Nat} {a b : List Bit} (h : a.length = w) :
    blockAt w (k + 1) (a ++ b) = blockAt w k b := by
  subst h
  have : a.length * (k + 1) = a.length + a.length * k := by ring
  simp [blockAt, this]

/-! ### One block -/

/-- The encoding equations (R101). -/
theorem codeword_eq (m0 m1 m2 m3 : Bit) :
    codeword [m0, m1, m2, m3] =
      [m0, m1, m2, m3, m0 ^^ m1 ^^ m3, m0 ^^ m2 ^^ m3, m1 ^^ m2 ^^ m3] := by
  revert m0 m1 m2 m3; decide

@[simp] theorem codeword_length (m0 m1 m2 m3 : Bit) : (codeword [m0, m1, m2, m3]).length = 7 := by
  rw [codeword_eq]; rfl

/-- The syndrome equations (R103). -/
theorem syndrome_eq (r0 r1 r2 r3 r4 r5 r6 : Bit) :
    syndrome [r0, r1, r2, r3, r4, r5, r6] =
      syndromeOf (fun i => bitAt [r0, r1, r2, r3, r4, r5, r6] i) := by
  revert r0 r1 r2 r3 r4 r5 r6; decide

/-- Each message bit of a block is the received bit, flipped where the syndrome value is its column's (R104, R106). -/
theorem decodeBlock_eq (r0 r1 r2 r3 r4 r5 r6 : Bit) :
    decodeBlock [r0, r1, r2, r3, r4, r5, r6] =
      (List.range 4).map fun i => bitAt [r0, r1, r2, r3, r4, r5, r6] i ^^
        decide (syndromeOf (fun j => bitAt [r0, r1, r2, r3, r4, r5, r6] j) = columnValue i) := by
  revert r0 r1 r2 r3 r4 r5 r6; decide

@[simp] theorem decodeBlock_length (r0 r1 r2 r3 r4 r5 r6 : Bit) :
    (decodeBlock [r0, r1, r2, r3, r4, r5, r6]).length = 4 := by rw [decodeBlock_eq]; simp

/-! ### One block at a time -/

@[simp] theorem hamEncode_nil : hamEncode [] = [] := rfl

theorem hamEncode_block (m0 m1 m2 m3 : Bit) (rest : List Bit) :
    hamEncode (m0 :: m1 :: m2 :: m3 :: rest) = codeword [m0, m1, m2, m3] ++ hamEncode rest := rfl

@[simp] theorem hamDecode_nil : hamDecode [] = [] := rfl

theorem hamDecode_block (r0 r1 r2 r3 r4 r5 r6 : Bit) (rest : List Bit) :
    hamDecode (r0 :: r1 :: r2 :: r3 :: r4 :: r5 :: r6 :: rest) =
      decodeBlock [r0, r1, r2, r3, r4, r5, r6] ++ hamDecode rest := rfl

/-- Induction over the 4-bit blocks of a sequence whose length is a multiple of 4. -/
theorem fourBlocks_induction {P : (b : List Bit) → b.length % 4 = 0 → Prop} (nil : P [] rfl)
    (block : ∀ m0 m1 m2 m3 rest (hr : rest.length % 4 = 0) (h : (m0 :: m1 :: m2 :: m3 :: rest).length % 4 = 0),
      P rest hr → P (m0 :: m1 :: m2 :: m3 :: rest) h)
    (b : List Bit) (h : b.length % 4 = 0) : P b h := by
  induction b using hamEncode.induct with
  | case1 m0 m1 m2 m3 rest ih =>
    have hr : rest.length % 4 = 0 := by simp only [List.length_cons] at h; omega
    exact block m0 m1 m2 m3 rest hr h (ih hr)
  | case2 b hb =>
    match b, h, hb with
    | [], _, _ => exact nil
    | [_], h, _ => simp at h
    | [_, _], h, _ => simp at h
    | [_, _, _], h, _ => simp at h
    | m0 :: m1 :: m2 :: m3 :: rest, _, hb => exact absurd rfl (hb m0 m1 m2 m3 rest)

/-- Induction over the 7-bit blocks of a sequence whose length is a multiple of 7. -/
theorem sevenBlocks_induction {P : (b : List Bit) → b.length % 7 = 0 → Prop} (nil : P [] rfl)
    (block : ∀ r0 r1 r2 r3 r4 r5 r6 rest (hr : rest.length % 7 = 0)
      (h : (r0 :: r1 :: r2 :: r3 :: r4 :: r5 :: r6 :: rest).length % 7 = 0),
      P rest hr → P (r0 :: r1 :: r2 :: r3 :: r4 :: r5 :: r6 :: rest) h)
    (b : List Bit) (h : b.length % 7 = 0) : P b h := by
  induction b using hamDecode.induct with
  | case1 r0 r1 r2 r3 r4 r5 r6 rest ih =>
    have hr : rest.length % 7 = 0 := by simp only [List.length_cons] at h; omega
    exact block r0 r1 r2 r3 r4 r5 r6 rest hr h (ih hr)
  | case2 b hb =>
    match b, h, hb with
    | [], _, _ => exact nil
    | [_], h, _ => simp at h
    | [_, _], h, _ => simp at h
    | [_, _, _], h, _ => simp at h
    | [_, _, _, _], h, _ => simp at h
    | [_, _, _, _, _], h, _ => simp at h
    | [_, _, _, _, _, _], h, _ => simp at h
    | r0 :: r1 :: r2 :: r3 :: r4 :: r5 :: r6 :: rest, _, hb => exact absurd rfl (hb r0 r1 r2 r3 r4 r5 r6 rest)

end Sys2Proof.Machine
end

