-- ==== Sys2Proof/Laws/Modem.lean ====
section
/-! SUPPORT. The modem over the real numbers: the values of its reference carriers, correlations and samples, and
how a modulated buffer is laid out in windows. -/
namespace Sys2Proof.Machine

theorem refI_val (c : Cfg) (k : Nat) : (refI c k).val = carrierSin c k := by
  simp [refI, carrierArg, sampleTime, carrierSin]

theorem refQ_val (c : Cfg) (k : Nat) : (refQ c k).val = carrierCos c k := by
  simp [refQ, carrierArg, sampleTime, carrierCos]

/-- A correlation is the dot product of the window's values with the reference's (R132). -/
theorem corr_val {c : Cfg} {ref : Cfg → Nat → XReal} {f : Cfg → Nat → ℝ} (h : ∀ k, (ref c k).val = f c k)
    (x : List XReal) (j : Nat) : (corr c x j ref).val = windowCorr c x j f := by
  simp [corr, windowCorr, valAt, Finset.sum_range, List.sum_ofFn, ← List.ofFn_eq_map, h, Function.comp_def,
    ← List.map_coe_finRange_eq_range]

theorem qpskPhase_val (b1 b2 : Bit) : (qpskPhase b1 b2).val = dibitPhase b1 b2 := by
  cases b1 <;> cases b2 <;> simp [qpskPhase, dibitPhase] <;> ring

theorem bpskSample_val (c : Cfg) (b : Bit) (n : Nat) :
    (bpskSample c b n).val = (if b then 1 else -1) * carrierSin c n := by
  cases b <;> simp [bpskSample, refI_val]

theorem qpskSample_val (c : Cfg) (d : Bit × Bit) (n : Nat) :
    (qpskSample c d n).val =
      carrierSin c n * Real.cos (dibitPhase d.1 d.2) + carrierCos c n * Real.sin (dibitPhase d.1 d.2) := by
  simp [qpskSample, refI_val, refQ_val, qpskPhase_val]

/-! ### The layout of a modulated buffer -/

section
variable {σ : Type} (c : Cfg) (sample : σ → Nat → XReal)

@[simp] theorem modulateFrom_length (i : Nat) (l : List σ) :
    (modulateFrom c sample i l).length = l.length * c.ns := by
  induction l generalizing i with
  | nil => simp [modulateFrom]
  | cons a as ih => simp [modulateFrom, ih]; ring

/-- Sample `k` of symbol `j` stands at `j*NS + k`, and is taken at the index counted over the whole buffer (R131). -/
theorem modulateFrom_getElem? (i j k : Nat) (l : List σ) (hj : j < l.length) (hk : k < c.ns) :
    (modulateFrom c sample i l)[j * c.ns + k]? = some (sample l[j] ((i + j) * c.ns + k)) := by
  induction l generalizing i j with
  | nil => simp at hj
  | cons a as ih =>
    rw [modulateFrom]
    cases j with
    | zero =>
      rw [List.getElem?_append_left (by simp; omega)]
      simp [hk]
    | succ j =>
      rw [List.getElem?_append_right (by simp; nlinarith)]
      have : (j + 1) * c.ns + k - (List.map (fun k => sample a (i * c.ns + k)) (List.range c.ns)).length
          = j * c.ns + k := by
        simp; ring_nf; omega
      rw [this, ih (i + 1) j (by simpa using hj)]
      rw [show i + 1 + j = i + (j + 1) by omega]
      rfl

end

/-- Every element of a modulated buffer is a sample of some symbol. -/
theorem mem_modulateFrom {σ : Type} {c : Cfg} {sample : σ → Nat → XReal} {i : Nat} {l : List σ} {v : XReal}
    (h : v ∈ modulateFrom c sample i l) : ∃ a ∈ l, ∃ n, v = sample a n := by
  induction l generalizing i with
  | nil => simp [modulateFrom] at h
  | cons a as ih =>
    simp only [modulateFrom, List.mem_append, List.mem_map] at h
    rcases h with ⟨k, -, rfl⟩ | h
    · exact ⟨a, by simp, _, rfl⟩
    · obtain ⟨a', ha, n, rfl⟩ := ih h
      exact ⟨a', by simp [ha], n, rfl⟩

@[simp] theorem dibits_length : ∀ b : List Bit, (dibits b).length = b.length / 2
  | [] => rfl
  | [_] => by simp [dibits]
  | _ :: _ :: rest => by simp [dibits, dibits_length rest]; omega

theorem dibits_getElem : ∀ (b : List Bit) (j : Nat) (h : j < (dibits b).length),
    (dibits b)[j] = (bitAt b (2 * j), bitAt b (2 * j + 1))
  | [], j, h => by simp at h
  | [_], j, h => by simp at h
  | b1 :: b2 :: rest, 0, _ => rfl
  | b1 :: b2 :: rest, j + 1, h => by
    have := dibits_getElem rest j (by simpa [dibits] using h)
    simp only [dibits, List.getElem_cons_succ, this]
    rfl

/-! ### Values of delivered samples -/

theorem valAt_of_getElem? {x : List XReal} {n : Nat} {v : XReal} (h : x[n]? = some v) : valAt x n = v.val := by
  simp [valAt, List.getD, h]

/-- Delivery changes no value. -/
@[simp] theorem valAt_map_norm (x : List XReal) (n : Nat) : valAt (x.map XReal.norm) n = valAt x n := by
  simp only [valAt, List.getD, List.getElem?_map]
  cases x[n]? <;> simp

/-- A correlation depends on the values of the samples alone. -/
theorem windowCorr_map_norm (c : Cfg) (x : List XReal) (j : Nat) (ref : Cfg → Nat → ℝ) :
    windowCorr c (x.map XReal.norm) j ref = windowCorr c x j ref := by simp [windowCorr]

end Sys2Proof.Machine
end

