-- ==== Sys2Proof/Laws/PerInstr.lean ====
section
/-! SUPPORT. One lemma per command: its command word, read as the opcode table numbers it, gives the command back,
and the frame built from that word carries an operand of the command's kind. -/
namespace Sys2Proof.Laws

def TableWord.Statement (i : Instr) : Prop :=
  decodeTableWord 8 (encode i).toNat = some i ∧
    frameOfTableWord (encode i).toNat = ⟨encode i, [zeroOperand i.operandKind]⟩ ∧
    i.operandsFit [zeroOperand i.operandKind] = true

theorem TableWord.configure : TableWord.Statement .configure := ⟨rfl, rfl, rfl⟩
theorem TableWord.hamEnc : TableWord.Statement .hamEnc := ⟨rfl, rfl, rfl⟩
theorem TableWord.hamDec : TableWord.Statement .hamDec := ⟨rfl, rfl, rfl⟩
theorem TableWord.bpskMod : TableWord.Statement .bpskMod := ⟨rfl, rfl, rfl⟩
theorem TableWord.qpskMod : TableWord.Statement .qpskMod := ⟨rfl, rfl, rfl⟩
theorem TableWord.bpskDem : TableWord.Statement .bpskDem := ⟨rfl, rfl, rfl⟩
theorem TableWord.qpskDem : TableWord.Statement .qpskDem := ⟨rfl, rfl, rfl⟩
theorem TableWord.awgnR : TableWord.Statement .awgnR := ⟨rfl, rfl, rfl⟩
theorem TableWord.awgnC : TableWord.Statement .awgnC := ⟨rfl, rfl, rfl⟩

end Sys2Proof.Laws
end

