-- ==== Sys2Proof/Laws/Trig.lean ====
section
/-! SUPPORT. The finite trigonometric sums (93_implementation_defined.md G2), and the carriers of a window that
holds a whole number of cycles (42_modem.md R140). -/
namespace Sys2Proof.Machine

open Finset

/-- Over `N` equally spaced points of `m` turns, `N` not dividing `m`, the cosines and the sines sum to 0. -/
theorem sum_cos_sin_multiples (N m : ℕ) (hN : 0 < N) (h : ¬ N ∣ m) :
    ∑ k ∈ range N, Real.cos (2 * Real.pi * m * k / N) = 0 ∧
      ∑ k ∈ range N, Real.sin (2 * Real.pi * m * k / N) = 0 := by
  have hz : ∑ k ∈ range N, Complex.exp (2 * Real.pi * Complex.I * m / N) ^ k = 0 := by
    have hprim := Complex.isPrimitiveRoot_exp N hN.ne'
    have hne : Complex.exp (2 * Real.pi * Complex.I * m / N) ≠ 1 := by
      intro h1
      have : Complex.exp (2 * Real.pi * Complex.I / N) ^ m = 1 := by
        rw [← Complex.exp_nat_mul, ← h1]; congr 1; ring
      exact h ((hprim.pow_eq_one_iff_dvd m).mp this)
    rw [geom_sum_eq hne]
    have : Complex.exp (2 * Real.pi * Complex.I * m / N) ^ N = 1 := by
      rw [← Complex.exp_nat_mul]
      have hN' : (N : ℂ) ≠ 0 := by exact_mod_cast hN.ne'
      rw [show (N : ℂ) * (2 * Real.pi * Complex.I * m / N) = m * (2 * Real.pi * Complex.I) by field_simp]
      exact Complex.exp_nat_mul_two_pi_mul_I m
    rw [this]; simp
  have hterm : ∀ k : ℕ, Complex.exp (2 * Real.pi * Complex.I * m / N) ^ k =
      (Real.cos (2 * Real.pi * m * k / N) : ℂ) + (Real.sin (2 * Real.pi * m * k / N) : ℂ) * Complex.I := by
    intro k
    rw [← Complex.exp_nat_mul,
      show (k : ℂ) * (2 * Real.pi * Complex.I * m / N) =
        ((2 * Real.pi * m * k / N : ℝ) : ℂ) * Complex.I by push_cast; ring, Complex.exp_mul_I]
    simp
  simp only [hterm, sum_add_distrib, ← sum_mul] at hz
  have hz' : ((∑ k ∈ range N, Real.cos (2 * Real.pi * m * k / N) : ℝ) : ℂ) +
      ((∑ k ∈ range N, Real.sin (2 * Real.pi * m * k / N) : ℝ) : ℂ) * Complex.I = 0 := by
    push_cast at hz ⊢; exact hz
  generalize (∑ k ∈ range N, Real.cos (2 * Real.pi * m * k / N) : ℝ) = A at *
  generalize (∑ k ∈ range N, Real.sin (2 * Real.pi * m * k / N) : ℝ) = B at *
  have hre := congrArg Complex.re hz'
  have him := congrArg Complex.im hz'
  simp at hre him
  exact ⟨hre, him⟩

/-- The sums of G2: of the squares and of the products of the two carriers over a window. -/
theorem sum_carrier_products (N m : ℕ) (hN : 0 < N) (h : ¬ N ∣ 2 * m) :
    ∑ k ∈ range N, Real.sin (2 * Real.pi * m * k / N) ^ 2 = N / 2 ∧
    ∑ k ∈ range N, Real.cos (2 * Real.pi * m * k / N) ^ 2 = N / 2 ∧
    ∑ k ∈ range N, Real.sin (2 * Real.pi * m * k / N) * Real.cos (2 * Real.pi * m * k / N) = 0 := by
  obtain ⟨h1, h2⟩ := sum_cos_sin_multiples N (2 * m) hN h
  have e : ∀ k : ℕ, 2 * Real.pi * ((2 * m : ℕ) : ℝ) * k / N = 2 * (2 * Real.pi * m * k / N) := by
    intro k; push_cast; ring
  simp only [e] at h1 h2
  have s2 : ∑ k ∈ range N, Real.sin (2 * Real.pi * m * k / N) ^ 2 =
      ∑ k ∈ range N, (1 / 2 - Real.cos (2 * (2 * Real.pi * m * k / N)) / 2) :=
    sum_congr rfl (fun k _ => Real.sin_sq_eq_half_sub _)
  have c2 : ∑ k ∈ range N, Real.cos (2 * Real.pi * m * k / N) ^ 2 =
      ∑ k ∈ range N, (1 / 2 + Real.cos (2 * (2 * Real.pi * m * k / N)) / 2) :=
    sum_congr rfl (fun k _ => Real.cos_sq _)
  have sc : ∑ k ∈ range N, Real.sin (2 * Real.pi * m * k / N) * Real.cos (2 * Real.pi * m * k / N) =
      ∑ k ∈ range N, Real.sin (2 * (2 * Real.pi * m * k / N)) / 2 :=
    sum_congr rfl (fun k _ => by rw [Real.sin_two_mul]; ring)
  rw [s2, c2, sc]
  simp only [sum_sub_distrib, sum_add_distrib, ← sum_div, h1, h2]
  simp

/-- Where a window holds `m` whole cycles, every window sees the same carriers (R140). -/
theorem carriers_of_whole_cycles {c : Cfg} {m : ℕ} (hfs : c.fs.val ≠ 0) (hns : c.ns ≠ 0)
    (h : c.fc.val * c.ns / c.fs.val = m) (j k : ℕ) :
    carrierSin c (j * c.ns + k) = Real.sin (2 * Real.pi * m * k / c.ns) ∧
      carrierCos c (j * c.ns + k) = Real.cos (2 * Real.pi * m * k / c.ns) := by
  have hn : (c.ns : ℝ) ≠ 0 := by exact_mod_cast hns
  have e : 2 * Real.pi * c.fc.val * (((j * c.ns + k : ℕ) : ℝ) / c.fs.val) =
      2 * Real.pi * m * k / c.ns + (m * j : ℕ) * (2 * Real.pi) := by
    push_cast; rw [← h]; field_simp; ring
  simp only [carrierSin, carrierCos]
  rw [e, Real.sin_add_nat_mul_two_pi, Real.cos_add_nat_mul_two_pi]
  exact ⟨rfl, rfl⟩

/-- The signs of the phase table (R135). -/
theorem dibitPhase_signs (b1 b2 : Bit) :
    (Real.sin (dibitPhase b1 b2) < 0 ↔ b1 = true) ∧ (Real.cos (dibitPhase b1 b2) < 0 ↔ b2 = true) := by
  have hs : (0 : ℝ) < √2 / 2 := by positivity
  have e : 3 * Real.pi / 4 = Real.pi - Real.pi / 4 := by ring
  cases b1 <;> cases b2 <;>
    simp only [dibitPhase, e, Real.sin_neg, Real.cos_neg, Real.sin_pi_sub, Real.cos_pi_sub,
      Real.sin_pi_div_four, Real.cos_pi_div_four] <;>
    simp <;> linarith

end Sys2Proof.Machine
end

