-- ==== Sys2Proof/Machine/Assembly.lean ====
section
/-! DEFINITION. The assembly syntax in which the spec writes its programs (30_encoding.md R69). It is a way of
writing frames down; nothing of the machine depends on it. -/
namespace Sys2Proof.Machine

/-- The mnemonic of a command (R62). -/
def mnemonic : Instr → String
  | .configure => "CONFIGURE"
  | .hamEnc => "HAM_ENC"
  | .hamDec => "HAM_DEC"
  | .bpskMod => "BPSK_MOD"
  | .qpskMod => "QPSK_MOD"
  | .bpskDem => "BPSK_DEM"
  | .qpskDem => "QPSK_DEM"
  | .awgnR => "AWGN_R"
  | .awgnC => "AWGN_C"

/-- The text of a real: R69 fixes the layout of a command only, so any text that names the real will do. -/
def realText : XReal → String
  | .rat q => if q.den = 1 then toString q.num else toString q.num ++ "/" ++ toString q.den
  | .pi => "pi"
  | .hostReal n => "x" ++ toString n
  | .draw s n => "g" ++ toString s ++ "." ++ toString n
  | .neg a => "-(" ++ realText a ++ ")"
  | .add a b => "(" ++ realText a ++ " + " ++ realText b ++ ")"
  | .sub a b => "(" ++ realText a ++ " - " ++ realText b ++ ")"
  | .mul a b => "(" ++ realText a ++ " * " ++ realText b ++ ")"
  | .div a b => "(" ++ realText a ++ " / " ++ realText b ++ ")"
  | .sin a => "sin(" ++ realText a ++ ")"
  | .cos a => "cos(" ++ realText a ++ ")"
  | .sqrt a => "sqrt(" ++ realText a ++ ")"
  | .pow10 a => "10^(" ++ realText a ++ ")"

/-- A sequence in brackets, element 0 first (R69). -/
def listText (l : List String) : String := "[" ++ String.intercalate "," l ++ "]"

/-- `BPSK`, `QPSK` or a raw code (R69). -/
def schemeText (v : BitVec 2) : String :=
  if v = 0 then "BPSK" else if v = 1 then "QPSK" else toString v.toNat

/-- An operand as R69 writes it; the syntax has no place for reserved MODE bits that are not 0. -/
def operandText : Operand → Option String
  | .bits b => some (listText (b.map fun x => if x then "1" else "0"))
  | .reals x => some (listText (x.map realText))
  | .cplx z => some (listText (z.map fun v => realText v.re ++ "+" ++ realText v.im ++ "i"))
  | .cfg r =>
    if reservedField r.mode = 0 then
      some (String.intercalate ", "
        [schemeText (schemeField r.mode), if eccField r.mode then "1" else "0",
          realText r.fc, realText r.fs, realText r.tb, realText r.snrDb])
    else none

/-- `MNEMONIC operand` (R69), for a frame with an assigned command word and one operand. -/
def assembly (f : Frame) : Option String :=
  match decode f.op, f.operands with
  | .ok i, [o] => (operandText o).map fun t => mnemonic i ++ " " ++ t
  | _, _ => none

end Sys2Proof.Machine
end

