-- ==== Sys2Proof/Tests/Slice0.lean ====
section
/-! SUPPORT. Tests. An expected result comes from the spec's own vectors (95_test_vectors.md), named in the comment,
or from the encoding tables. The second half shows, for each statement of Obligations.lean that has hypotheses,
concrete values that meet them together. -/
namespace Sys2Proof.Tests

open Sys2Proof.Machine

-- One theorem at a time: many at once need more threads than the check's memory limit allows.
set_option Elab.async false

/-! ### Helpers -/

/-- The configurations K1, K3 and K5 of 95_test_vectors.md, with SNR_DB = 0. -/
def cfgOf (fc fs tb : Rat) : Cfg := ⟨0, false, .rat fc, .rat fs, .rat tb, .rat 0⟩
def k1 : Cfg := cfgOf 1 4 1
def k3 : Cfg := cfgOf 2 4 1
def k5 : Cfg := cfgOf 1 4 (13 / 10)

/-- The block between two commands, configured as given. -/
def block (c : Option Cfg) : State := { State.reset with cfg := c }

/-- The block as it starts on a command of the given operand. -/
def on (c : Option Cfg) (i : Instr) (o : Operand) : State := (block c).accept ⟨encode i, [o]⟩

/-- The block about to serve one request. -/
def facing (c : Option Cfg) (r : Request) : State := { block c with requests := [r] }

def bitsOf (l : List Nat) : List Bit := l.map (· == 1)

def ratsOf (l : List Rat) : List XReal := l.map .rat

/-- `q·√2`, spelled as results are. -/
def root2 (q : Rat) : XReal := .mul (.rat q) (.sqrt (.rat 2))

def nextOf (o : Out) : Option State :=
  match o with
  | .next t => some t
  | _ => none

def replyOf (o : Out) : Option Reply := (nextOf o).bind (·.reply)

def statusOf (o : Out) : Option Byte := (nextOf o).map (·.status)

def refusalOf (o : Out) : Option Refusal :=
  match o with
  | .refused r => some r
  | _ => none

def faultOf (o : Out) : Option Fault :=
  match o with
  | .fault r => some r
  | _ => none

/-! ### Decoding: each command word, bit by bit from R61 and R62 -/

theorem test_decode_configure : decode 0b00000001#8 = .ok .configure := by decide
theorem test_decode_ham_enc : decode 0b00010000#8 = .ok .hamEnc := by decide
theorem test_decode_ham_dec : decode 0b00010001#8 = .ok .hamDec := by decide
theorem test_decode_bpsk_mod : decode 0b00100000#8 = .ok .bpskMod := by decide
theorem test_decode_qpsk_mod : decode 0b00100001#8 = .ok .qpskMod := by decide
theorem test_decode_bpsk_dem : decode 0b00110000#8 = .ok .bpskDem := by decide
theorem test_decode_qpsk_dem : decode 0b00110001#8 = .ok .qpskDem := by decide
theorem test_decode_awgn_r : decode 0b01000000#8 = .ok .awgnR := by decide
theorem test_decode_awgn_c : decode 0b01000001#8 = .ok .awgnC := by decide

/-- I12: the ends of the reserved ranges are rejected, each by the name of its reason. -/
theorem test_decode_reserved :
    decode 0x00 = .error (.reservedFn 0 0) ∧ decode 0x02 = .error (.reservedFn 0 2) ∧
    decode 0x12 = .error (.reservedFn 1 2) ∧ decode 0x4F = .error (.reservedFn 4 15) ∧
    decode 0x50 = .error (.reservedClass 5) ∧ decode 0xFF = .error (.reservedClass 15) := by decide

theorem test_decode_table_word :
    decodeTableWord 8 0x21 = some .qpskMod ∧ decodeTableWord 8 0x00 = none ∧
    decodeTableWord 16 0x21 = none := by decide

/-! ### Ill-formed frames: the operand check refuses each (R67) -/

theorem test_ill_formed_no_operand : Instr.operandsFit .hamEnc [] = false := by decide
theorem test_ill_formed_two_operands :
    Instr.operandsFit .hamEnc [.bits [], .bits []] = false := by decide
/-- R67's examples, and CONFIGURE with a sequence. -/
theorem test_ill_formed_kind :
    Instr.operandsFit .hamEnc [.reals []] = false ∧ Instr.operandsFit .bpskDem [.cplx []] = false ∧
    Instr.operandsFit .qpskDem [.cplx []] = false ∧ Instr.operandsFit .awgnR [.cplx []] = false ∧
    Instr.operandsFit .awgnC [.reals []] = false ∧ Instr.operandsFit .configure [.bits []] = false := by decide
theorem test_well_formed : Instr.operandsFit .awgnC [.cplx []] = true := by decide

/-! ### CONFIGURE -/

/-- T-C11: TB·FS = 5.2 truncates to NS = 5, STATUS 0x08. -/
theorem test_configure_truncates :
    let t := nextOf (exec .configure (on none .configure (.cfg ⟨0x00, .rat 1, .rat 4, .rat (13 / 10), .rat 0⟩)))
    (t.bind (·.cfg)).map Cfg.ns = some 5 ∧ t.map (·.status) = some 0x08 := by decide +kernel

/-- T-C4: a reserved MODE bit is InvalidArgument, and CFG keeps K1. -/
theorem test_configure_reserved_bit :
    let t := nextOf (exec .configure (on (some k1) .configure (.cfg ⟨0x08, .rat 1, .rat 4, .rat 1, .rat 0⟩)))
    t.bind (·.cfg) = some k1 ∧ t.map (·.status) = some 0x19 := by decide +kernel

/-! ### The channel coder -/

/-- T-H2. -/
theorem test_ham_enc_two_blocks :
    replyOf (exec .hamEnc (on none .hamEnc (.bits (bitsOf [1, 0, 1, 1, 0, 0, 0, 1])))) =
      some (.bits (bitsOf [1, 0, 1, 1, 0, 1, 0, 0, 0, 0, 1, 1, 1, 1])) := by decide

/-- The codebook of R108, messages 0000 to 1111 in order. -/
theorem test_ham_enc_codebook :
    (List.range 16).map (fun m => natOfBits (codeword (List.ofFn fun k : Fin 4 => m.testBit (3 - k.val)))) =
      [0b0000000, 0b0001111, 0b0010011, 0b0011100, 0b0100101, 0b0101010, 0b0110110, 0b0111001,
        0b1000110, 0b1001001, 0b1010101, 0b1011010, 0b1100011, 0b1101100, 0b1110000, 0b1111111] := by decide

/-- T-H8: one error in each of two blocks. -/
theorem test_ham_dec_corrects :
    replyOf (exec .hamDec (on none .hamDec (.bits (bitsOf [1, 1, 1, 1, 0, 1, 0, 0, 0, 0, 1, 1, 1, 0])))) =
      some (.bits (bitsOf [1, 0, 1, 1, 0, 0, 0, 1])) := by decide

/-- T-H6c: two parity errors corrupt the message, with ERR 0. -/
theorem test_ham_dec_miscorrects :
    let o := exec .hamDec (on none .hamDec (.bits (bitsOf [1, 0, 1, 1, 1, 0, 0])))
    replyOf o = some (.bits (bitsOf [0, 0, 1, 1])) ∧ statusOf o = some 0x00 := by decide

/-! ### The modem -/

/-- T-M1: the phase runs on into the second window. -/
theorem test_bpsk_mod_k1 :
    replyOf (exec .bpskMod (on (some k1) .bpskMod (.bits [true, false]))) =
      some (.reals (ratsOf [0, 1, 0, -1, 0, -1, 0, 1])) := by decide +kernel

/-- T-M6: NS = 5, a window that holds no whole number of cycles. -/
theorem test_bpsk_mod_k5 :
    replyOf (exec .bpskMod (on (some k5) .bpskMod (.bits [true, true]))) =
      some (.reals (ratsOf [0, 1, 0, -1, 0, 1, 0, -1, 0, 1])) := by decide +kernel

/-- T-M2: the ninth sample is ignored. -/
theorem test_bpsk_dem_k1 :
    replyOf (exec .bpskDem (on (some k1) .bpskDem (.reals (ratsOf [0, 1, 0, -1, 0, -1, 0, 1, 5])))) =
      some (.bits [true, false]) := by decide +kernel

/-- T-M6: the second window's correlation is exactly 0, which gives 0. -/
theorem test_bpsk_dem_zero :
    replyOf (exec .bpskDem (on (some k5) .bpskDem (.reals (ratsOf [0, 1, 0, -1, 0, 1, 0, -1, 0, 1])))) =
      some (.bits [true, false]) := by decide +kernel

/-- T-Q4, its first half. -/
theorem test_qpsk_mod_k1 :
    replyOf (exec .qpskMod (on (some k1) .qpskMod (.bits (bitsOf [0, 1, 1, 0])))) =
      some (.reals ([1 / 2, -1 / 2, -1 / 2, 1 / 2, -1 / 2, 1 / 2, 1 / 2, -1 / 2].map root2)) := by decide +kernel

/-- T-Q3b: NotConfigured before InvalidLength. -/
theorem test_qpsk_mod_unconfigured :
    statusOf (exec .qpskMod (on none .qpskMod (.bits (bitsOf [0, 1, 1])))) = some 0x15 := by decide

/-- T-Q2: the phase table, not the source's worded rule. -/
theorem test_qpsk_dem_k1 :
    replyOf (exec .qpskDem (on (some k1) .qpskDem (.reals ([1 / 2, -1 / 2, -1 / 2, 1 / 2].map root2)))) =
      some (.bits [false, true]) := by decide +kernel

/-- T-Q5: the in-phase reference is all zero, so b2 = 0. -/
theorem test_qpsk_dem_k3 :
    replyOf (exec .qpskDem (on (some k3) .qpskDem (.reals ([1 / 2, -1 / 2, 1 / 2, -1 / 2].map root2)))) =
      some (.bits [false, false]) := by decide +kernel

/-! ### The channel model, on the spec's draws -/

/-- T-A1. -/
theorem test_awgn_r_snr_0 :
    (awgnReal k1 (ratsOf [0, 1, 0, -1]) (ratsOf [1, -1, 1 / 2, 2])).map XReal.norm =
      [root2 (1 / 2), .add (.rat 1) (root2 (-1 / 2)), root2 (1 / 4), .add (.rat (-1)) (root2 1)] := by decide +kernel

/-- T-A3: SNR_DB = -20. -/
theorem test_awgn_r_snr_minus_20 :
    (awgnReal { k1 with snrDb := .rat (-20) } (ratsOf [0, 1, 0, -1]) (ratsOf [1, -1, 1 / 2, 2])).map XReal.norm =
      [root2 5, .add (.rat 1) (root2 (-5)), root2 (5 / 2), .add (.rat (-1)) (root2 10)] := by decide +kernel

/-- T-A6: the first draws go to the real parts. -/
theorem test_awgn_c_real_first :
    (awgnCplx k1 [⟨.rat 1, .rat 0⟩, ⟨.rat 0, .rat 1⟩] (ratsOf [1, 0]) (ratsOf [0, -1])).map Cplx.norm =
      [⟨.add (.rat 1) (root2 (1 / 2)), .rat 0⟩, ⟨.rat 0, .add (.rat 1) (root2 (-1 / 2))⟩] := by decide +kernel

/-- R175: AWGN_C on two samples takes four draws. -/
theorem test_awgn_c_draws :
    (nextOf (exec .awgnC (on (some k1) .awgnC (.cplx [⟨.rat 1, .rat 0⟩, ⟨.rat 0, .rat 1⟩])))).map (·.drawsTaken) =
      some 4 := by decide +kernel

/-! ### The interface -/

/-- T-C10: a reserved word, configured. -/
theorem test_step_reserved :
    statusOf (step (facing (some k1) (.command ⟨0xFF, [.bits []]⟩))) = some 0x1C := by decide

/-- P4, step 7: HAM_DEC with a REALSEQ. -/
theorem test_step_malformed :
    statusOf (step { facing (some k1) (.command ⟨0x11, [.reals [.rat (1 / 2)]]⟩) with sticky := true }) =
      some 0x1C := by decide

/-- R38: a read of NS before any configuration faults. -/
theorem test_step_read_unset : faultOf (step (facing none (.readCfg .ns))) = some (.cfgUnset .ns) := by decide

/-- R250: reset in the middle of a command. -/
theorem test_step_command_then_reset :
    (nextOf (step { facing (some k1) (.commandThenReset ⟨0x10, [.bits []]⟩) with sticky := true })).map
      (fun t => (t.status, t.cfg, t.reply)) = some (0x00, none, none) := by decide

/-- R80, I6: a result over MAX_SEQ_LEN. -/
theorem test_result_too_long :
    refusalOf (exec .hamEnc { on none .hamEnc (.bits (bitsOf [1, 0, 1, 1])) with maxSeqLen := some 6 }) =
      some (.resultTooLong 7) := by decide

/-- The word placed by withFetchWord runs as the first command after reset (P4: NotConfigured). -/
theorem test_fetch_word_runs :
    statusOf (step (State.reset.withFetchWord 8 0x21)) = some 0x15 := by decide

/-! ### The reference host -/

/-- W4. -/
theorem test_ber :
    computeBer [true, false, true, true] [true, true, true, true] = .value (1 / 4) ∧
    computeBer [false, true, true] [false, true] = .raises .lengthMismatch ∧
    computeBer [] [] = .fault .berUndefined := by decide +kernel

/-- P5, part B: RUN 4 with QPSK and error correction aborts with InvalidLength. -/
theorem test_run_4_aborts :
    (match runOnce (block (some { k1 with scheme := 1, eccEn := true })) (fun n => n != 1) 4 with
      | .aborted code phases t => some (code, phases, t.status, t.drawsTaken)
      | _ => none) = some (2, [.configured, .generated, .encoded], 0x1A, 0) := by decide +kernel

/-- The assembly text of P4, step 6, and of P3, step 1. -/
theorem test_assembly :
    assembly ⟨0x21, [.bits (bitsOf [0, 1, 1])]⟩ = some "QPSK_MOD [0,1,1]" ∧
    assembly ⟨0x01, [.cfg ⟨0x01, .rat 1, .rat 4, .rat 1, .rat 0⟩]⟩ = some "CONFIGURE QPSK, 0, 1, 4, 1, 0" := by
  decide +kernel

/-! ### Witnesses: concrete values that meet the hypotheses of each statement of Obligations.lean together -/

/-- A concrete outcome gives a next state with a property that was evaluated on it. -/
theorem exists_next {o : Out} (p : State → Bool) (h : (nextOf o).any p = true) :
    ∃ t, o = .next t ∧ p t = true := by
  cases o <;> simp_all [nextOf]

theorem k1_legal : k1.Legal :=
  ⟨by decide, by norm_num [k1, cfgOf], by norm_num [k1, cfgOf], by norm_num [k1, cfgOf], by decide +kernel⟩

theorem k3_legal : k3.Legal :=
  ⟨by decide, by norm_num [k3, cfgOf], by norm_num [k3, cfgOf], by norm_num [k3, cfgOf], by decide +kernel⟩

/-- K1 meets the round-trip condition: one cycle a window, and 4 does not divide 2. -/
theorem k1_roundTrip : RoundTripCfg k1 :=
  ⟨1, by rw [show k1.ns = 4 by decide +kernel]; norm_num [k1, cfgOf],
    by rw [show k1.ns = 4 by decide +kernel]; decide⟩

/-- The invariant, in a state that is not the reset state: configured, STICKY set, a result delivered. -/
theorem inv_witness (r : List Request) :
    State.Inv { block (some k1) with sticky := true, reply := some (.bits [true]), requests := r } where
  cfgLegal := fun c h => by cases h; exact k1_legal
  errLegal := .inl rfl
  errSticky := fun _ => rfl
  errNotConfigured := fun h => by cases h
  idle := rfl
  resultOk := fun _ _ _ => rfl
  resultFits := fun _ _ => rfl

theorem test_hyps_OpcodeMapWordsDecode :
    (0x02 : Byte) ∉ ([0x01, 0x10, 0x11, 0x20, 0x21, 0x30, 0x31, 0x40, 0x41] : List Byte) := by decide

theorem test_hyps_StepRunsDecodedCommand :
    (facing none (.command ⟨0x10, [.bits []]⟩)).issues ⟨0x10, [.bits []]⟩ [] ∧ decode 0x10 = .ok .hamEnc :=
  ⟨rfl, by decide⟩

theorem test_hyps_IdleStepKeepsState : (block (some k1)).requests = [] := rfl

theorem test_hyps_ReservedWordRaisesIllegalCommand :
    (facing none (.command ⟨0x42, []⟩)).issues ⟨0x42, []⟩ [] ∧ ∀ i, (0x42 : Byte) ≠ encode i :=
  ⟨rfl, by intro i; cases i <;> decide⟩

/-- No operand, one of the wrong kind, and two. -/
theorem test_hyps_MalformedFrameRaisesIllegalCommand :
    Instr.operandsFit .awgnC ((block none).accept ⟨0x41, []⟩).operands = false ∧
    Instr.operandsFit .awgnC (on none .awgnC (.reals [])).operands = false ∧
    Instr.operandsFit .awgnC ((block none).accept ⟨0x41, [.cplx [], .cplx []]⟩).operands = false := by decide

/-- Both clauses; the first with an operand exactly as long as the limit, and of odd length. -/
theorem test_hyps_NotConfiguredBeforeLengthCheck :
    (let s := { on none .qpskMod (.bits [true]) with maxSeqLen := some 1 }
     readsCfg .qpskMod = true ∧ s.cfg = none ∧ s.operands = [.bits [true]] ∧
        Operand.kind (.bits [true]) = Instr.operandKind .qpskMod ∧ s.tooLong 1 = false) ∧
    ∃ t, step (facing none (.command ⟨0x01, [.cfg ⟨0, .rat 1, .rat 4, .rat 1, .rat 0⟩]⟩)) = .next t ∧
      (t.cfg != none) = true :=
  ⟨by decide, exists_next (fun t => t.cfg != none) (by decide +kernel)⟩

/-- A result, CONFIGURE's lack of one, and an error. -/
theorem test_hyps_ResultKindFollowsOpcode :
    (∃ t, exec .awgnR (on (some k1) .awgnR (.reals [])) = .next t ∧ (t.err == 0) = true) ∧
    (∃ t, exec .configure (on none .configure (.cfg ⟨0, .rat 1, .rat 4, .rat 1, .rat 0⟩)) = .next t ∧
      (t.err == 0) = true) ∧
    ∃ t, exec .hamDec (on none .hamDec (.bits [true])) = .next t ∧ (t.err != 0) = true :=
  ⟨exists_next (fun t => t.err == 0) (by decide +kernel), exists_next (fun t => t.err == 0) (by decide +kernel),
    exists_next (fun t => t.err != 0) (by decide)⟩

theorem test_hyps_FailedCommandHasOnlyErrorEffects :
    ∃ t, step (facing none (.command ⟨0x10, [.bits [true]]⟩)) = .next t ∧ (t.err != 0) = true :=
  exists_next (fun t => t.err != 0) (by decide)

/-- Frames that end in each of the four codes. -/
theorem test_hyps_ErrorCodeTellsItsCause :
    (∃ t, step (facing none (.command ⟨0x00, []⟩)) = .next t ∧ (t.err == 4) = true) ∧
    (∃ t, step (facing none (.command ⟨0x31, [.reals []]⟩)) = .next t ∧ (t.err == 5) = true) ∧
    (∃ t, step (facing none (.command ⟨0x01, [.cfg ⟨2, .rat 1, .rat 4, .rat 1, .rat 0⟩]⟩)) = .next t ∧
      (t.err == 1) = true) ∧
    ∃ t, step (facing (some k1) (.command ⟨0x21, [.bits [true]]⟩)) = .next t ∧ (t.err == 2) = true :=
  ⟨exists_next (fun t => t.err == 4) (by decide), exists_next (fun t => t.err == 5) (by decide),
    exists_next (fun t => t.err == 1) (by decide +kernel), exists_next (fun t => t.err == 2) (by decide)⟩

/-- Both clauses: a command that errs, and a reset that clears STICKY. -/
theorem test_hyps_StickyIsSetByErrorsAndClearedByReset :
    (∃ t, step (facing none (.command ⟨0x10, [.bits [true]]⟩)) = .next t ∧ t.sticky = true) ∧
    ∃ t, step { facing none .reset with sticky := true } = .next t ∧ (!t.sticky) = true :=
  ⟨exists_next (fun t => t.sticky) (by decide), exists_next (fun t => !t.sticky) (by decide)⟩

theorem test_hyps_OnlyConfigureAndResetChangeCfg :
    ∃ t, step (facing (some k3) (.command ⟨0x01, [.cfg ⟨0, .rat 1, .rat 4, .rat 1, .rat 0⟩]⟩)) = .next t ∧
      (t.cfg != some k3) = true :=
  exists_next (fun t => t.cfg != some k3) (by decide +kernel)

theorem test_hyps_ResetSetsStateAndDiscardsCommand :
    (facing (some k1) .reset).requests = [.reset] ∧
    (facing (some k1) (.commandThenReset ⟨0x10, []⟩)).requests = [.commandThenReset ⟨0x10, []⟩] := ⟨rfl, rfl⟩

theorem test_hyps_HostReads :
    (facing none .readStatus).requests = [.readStatus] ∧
    ((facing (some k1) (.readCfg .ns)).requests = [.readCfg .ns] ∧ (facing (some k1) (.readCfg .ns)).cfg = some k1) ∧
    ((facing none (.readCfg .fc)).requests = [.readCfg .fc] ∧ (facing none (.readCfg .fc)).cfg = none) :=
  ⟨rfl, ⟨rfl, rfl⟩, rfl, rfl⟩

/-- An operand one element over the limit. -/
theorem test_hyps_OversizeOperandIsRefused :
    let s := { on none .hamEnc (.bits (bitsOf [1, 0, 1, 1])) with maxSeqLen := some 3 }
    Instr.hamEnc ≠ .configure ∧ s.operands = [.bits (bitsOf [1, 0, 1, 1])] ∧ s.tooLong 4 = true := by decide

/-- Both refusals: the operand one element over the limit, and the result. -/
theorem test_hyps_CommandsStopOnlyForLength :
    refusalOf (exec .hamEnc { on none .hamEnc (.bits (bitsOf [1, 0, 1, 1])) with maxSeqLen := some 3 }) =
      some (.operandTooLong 4) ∧
    refusalOf (exec .hamEnc { on none .hamEnc (.bits (bitsOf [1, 0, 1, 1])) with maxSeqLen := some 6 }) =
      some (.resultTooLong 7) := by decide

/-- A result one element over the limit: of a coder, and of a modulator, whose length law has NS in it. -/
theorem test_hyps_OversizeResultIsRefused :
    (let s := { on none .hamEnc (.bits (bitsOf [1, 0, 1, 1])) with maxSeqLen := some 6 }
     s.operands = [.bits (bitsOf [1, 0, 1, 1])] ∧ s.tooLong 4 = false ∧
       resultLength .hamEnc s.cfg [.bits (bitsOf [1, 0, 1, 1])] = some 7 ∧ s.tooLong 7 = true) ∧
    (let s := { on (some k1) .bpskMod (.bits [true]) with maxSeqLen := some 3 }
     s.operands = [.bits [true]] ∧ s.tooLong 1 = false ∧
       resultLength .bpskMod s.cfg [.bits [true]] = some 4 ∧ s.tooLong 4 = true) := by decide +kernel

/-- A command that delivers a result, and one that raises. -/
theorem test_hyps_ResultLengthFollowsLengthLaw :
    (∃ t, exec .qpskMod (on (some k1) .qpskMod (.bits [true, false])) = .next t ∧ (t.err == 0) = true) ∧
    ∃ t, exec .qpskMod (on (some k1) .qpskMod (.bits [true])) = .next t ∧ (t.err == 2) = true :=
  ⟨exists_next (fun t => t.err == 0) (by decide +kernel), exists_next (fun t => t.err == 2) (by decide)⟩

theorem test_hyps_EveryCommandCompletes :
    (facing none (.command ⟨0xFF, []⟩)).maxSeqLen = none ∧
    (facing none (.command ⟨0xFF, []⟩)).issues ⟨0xFF, []⟩ [] := ⟨rfl, rfl⟩

theorem test_hyps_NonAwgnCommandsAreIdempotent :
    Instr.bpskMod ≠ .awgnR ∧ Instr.bpskMod ≠ .awgnC ∧
    ∃ t, exec .bpskMod (on (some k1) .bpskMod (.bits [true])) = .next t ∧ (t.err == 0) = true :=
  ⟨by decide, by decide, exists_next (fun t => t.err == 0) (by decide +kernel)⟩

/-- Two starting states that differ in ERR and in the reply of the command before. -/
theorem test_hyps_NothingElseCarriesOver :
    let s := on (some k1) .bpskMod (.bits [true])
    let s' := { s with err := 2, reply := some (.bits [false]) }
    s'.operands = s.operands ∧ s'.cfg = s.cfg ∧ s'.sticky = s.sticky ∧ s'.noiseSeed = s.noiseSeed ∧
      s'.drawsTaken = s.drawsTaken ∧ s'.maxSeqLen = s.maxSeqLen ∧
      ∃ t, exec .bpskMod s = .next t ∧ (t.err == 0) = true :=
  ⟨rfl, rfl, rfl, rfl, rfl, rfl, exists_next (fun t => t.err == 0) (by decide +kernel)⟩

theorem test_hyps_SchemeAndEccAreReadByNoCommand :
    Instr.awgnR ≠ .configure ∧ (on (some k1) .awgnR (.reals (ratsOf [1]))).cfg = some k1 ∧
    ∃ t, exec .awgnR (on (some k1) .awgnR (.reals (ratsOf [1]))) = .next t ∧ (t.err == 0) = true :=
  ⟨by decide, rfl, exists_next (fun t => t.err == 0) (by decide +kernel)⟩

theorem test_hyps_EveryStepKeepsInv :
    let s := { block (some k1) with
      sticky := true, reply := some (.bits [true]), requests := [.command ⟨0x30, [.reals (ratsOf [0, 1, 0, -1])]⟩] }
    s.Inv ∧ ∃ t, step s = .next t ∧ (t.reply == some (.bits [true])) = true :=
  ⟨inv_witness _, exists_next (fun t => t.reply == some (.bits [true])) (by decide +kernel)⟩

/-- Both clauses: T-C6, where TB·FS is exactly 1, and T-C5, where it is 1/2. -/
theorem test_hyps_ConfigureWritesAllOrNothing :
    ((on none .configure (.cfg ⟨0, .rat 1, .rat 4, .rat (1 / 4), .rat 0⟩)).operands =
      [.cfg ⟨0, .rat 1, .rat 4, .rat (1 / 4), .rat 0⟩] ∧ LegalRecord ⟨0, .rat 1, .rat 4, .rat (1 / 4), .rat 0⟩) ∧
    ¬ LegalRecord ⟨0, .rat 1, .rat 5, .rat (1 / 10), .rat 0⟩ :=
  ⟨⟨rfl, by decide, by decide, by norm_num, by norm_num, by norm_num, by norm_num⟩,
    fun h => absurd h.ns (by norm_num)⟩

theorem test_hyps_SamplesPerSymbolIsFloor :
    (let s := { block (some k1) with sticky := true, reply := some (.bits [true]), requests := [] }
     s.Inv ∧ s.cfg = some k1) := ⟨inv_witness [], rfl⟩

theorem test_hyps_ConstructionWritesParameters :
    (facing none (.command (constructFrame 1 true (.rat 1) (.rat 4) (.rat (1 / 4)) .pi))).issues
      (constructFrame 1 true (.rat 1) (.rat 4) (.rat (1 / 4)) .pi) [] ∧ (1 : BitVec 2).toNat ≤ 1 ∧
    0 < (XReal.rat 1).val ∧ 0 < (XReal.rat 4).val ∧ 0 < (XReal.rat (1 / 4)).val ∧
    1 ≤ ⌊(XReal.rat (1 / 4)).val * (XReal.rat 4).val⌋₊ :=
  ⟨rfl, by decide, by norm_num, by norm_num, by norm_num, by norm_num⟩

/-- Both clauses, the first with a result exactly as long as the limit. -/
theorem test_hyps_HamEncResult :
    (let s := { on none .hamEnc (.bits (bitsOf [1, 0, 1, 1])) with maxSeqLen := some 7 }
     s.operands = [.bits (bitsOf [1, 0, 1, 1])] ∧ s.tooLong 4 = false ∧ 4 % 4 = 0 ∧ s.tooLong (7 * 4 / 4) = false) ∧
    ((on none .hamEnc (.bits [true])).operands = [.bits [true]] ∧ [true].length % 4 ≠ 0) := by decide

theorem test_hyps_HamDecResult :
    (let b := bitsOf [1, 0, 1, 1, 0, 1, 0]
     let s := { on none .hamDec (.bits b) with maxSeqLen := some 7 }
     s.operands = [.bits b] ∧ s.tooLong b.length = false ∧ b.length % 7 = 0) ∧
    ((on none .hamDec (.bits [true])).operands = [.bits [true]] ∧ [true].length % 7 ≠ 0) := by decide

/-- One wrong bit, and two. -/
theorem test_hyps_HamDecCorrectsExactlySingleErrors :
    (let b := bitsOf [1, 0, 1, 1]
     ∀ e ∈ [bitsOf [0, 1, 0, 0, 0, 0, 0], bitsOf [1, 0, 0, 0, 0, 0, 1]],
        b.length % 4 = 0 ∧ e.length = 7 * (b.length / 4) ∧
        (on none .hamDec (.bits (List.zipWith xor (hamEncode b) e))).operands =
          [.bits (List.zipWith xor (hamEncode b) e)] ∧
        (on none .hamDec (.bits (List.zipWith xor (hamEncode b) e))).tooLong (7 * (b.length / 4)) = false) := by
  decide

/-- The first and the last position. -/
theorem test_hyps_SyndromeLocatesSingleError : 0 < 7 ∧ 6 < 7 := by decide

theorem test_hyps_HammingLengthsAndBlocks :
    (bitsOf [1, 0, 1, 1]).length % 4 = 0 ∧ (bitsOf [1, 0, 1, 1, 0, 1, 0]).length % 7 = 0 := by decide

/-- A result exactly as long as the limit. -/
theorem test_hyps_BpskModResult :
    let s := { on (some k1) .bpskMod (.bits [true, false]) with maxSeqLen := some 8 }
    s.operands = [.bits [true, false]] ∧ s.cfg = some k1 ∧ s.tooLong 2 = false ∧ s.tooLong (2 * k1.ns) = false := by
  decide +kernel

/-- Both clauses. -/
theorem test_hyps_QpskModResult :
    (let s := { on (some k1) .qpskMod (.bits [true, false]) with maxSeqLen := some 4 }
     s.operands = [.bits [true, false]] ∧ s.cfg = some k1 ∧ s.tooLong 2 = false ∧ 2 % 2 = 0 ∧
        s.tooLong (2 / 2 * k1.ns) = false) ∧
    ((on (some k1) .qpskMod (.bits [true])).operands = [.bits [true]] ∧
      (on (some k1) .qpskMod (.bits [true])).cfg = some k1 ∧ [true].length % 2 ≠ 0) := by decide +kernel

theorem test_hyps_BpskDemResult :
    let x := ratsOf [0, 1, 0, -1, 5]
    let s := { on (some k1) .bpskDem (.reals x) with maxSeqLen := some 5 }
    s.operands = [.reals x] ∧ s.cfg = some k1 ∧ s.tooLong x.length = false := by decide +kernel

theorem test_hyps_QpskDemResult :
    let x := ratsOf [0, 1, 0, -1, 5]
    let s := { on (some k1) .qpskDem (.reals x) with maxSeqLen := some 5 }
    s.operands = [.reals x] ∧ s.cfg = some k1 ∧ s.tooLong x.length = false ∧
      s.tooLong (2 * (x.length / k1.ns)) = false := by decide +kernel

theorem test_hyps_QpskSampleIsShiftedCarrier :
    let s := on (some k1) .qpskMod (.bits [true, false])
    s.operands = [.bits [true, false]] ∧ s.cfg = some k1 ∧ s.tooLong 2 = false ∧ 2 % 2 = 0 ∧
      s.tooLong (2 / 2 * k1.ns) = false := by decide +kernel

theorem test_hyps_ModulatedAmplitudeIsAtMostOne :
    ∃ t, exec .bpskMod (on (some k1) .bpskMod (.bits [true])) = .next t ∧
      (t.reply == some (.reals (ratsOf [0, 1, 0, -1]))) = true :=
  exists_next (fun t => t.reply == some (.reals (ratsOf [0, 1, 0, -1]))) (by decide +kernel)

theorem test_hyps_BpskNoiselessRoundTrip :
    let s := on (some k1) .bpskMod (.bits [true, false, true])
    s.operands = [.bits [true, false, true]] ∧ s.cfg = some k1 ∧ k1.Legal ∧ RoundTripCfg k1 ∧ s.maxSeqLen = none :=
  ⟨rfl, rfl, k1_legal, k1_roundTrip, rfl⟩

theorem test_hyps_QpskNoiselessRoundTrip :
    let s := on (some k1) .qpskMod (.bits [true, false])
    s.operands = [.bits [true, false]] ∧ [true, false].length % 2 = 0 ∧ s.cfg = some k1 ∧ k1.Legal ∧
      RoundTripCfg k1 ∧ s.maxSeqLen = none := ⟨rfl, rfl, rfl, k1_legal, k1_roundTrip, rfl⟩

/-- K3, where 2·FC/FS = 1, with a bit operand and with a sample operand. -/
theorem test_hyps_IntegerHalfRatioSilencesCarrier :
    k3.Legal ∧ 2 * k3.fc.val / k3.fs.val = ((1 : ℤ) : ℝ) ∧
    (let s := on (some k3) .bpskMod (.bits [true])
     s.cfg = some k3 ∧ s.maxSeqLen = none ∧ s.operands = [.bits [true]]) ∧
    (let s := on (some k3) .bpskDem (.reals (ratsOf [1, 2, 3, 4]))
     s.cfg = some k3 ∧ s.maxSeqLen = none ∧ s.operands = [.reals (ratsOf [1, 2, 3, 4])]) :=
  ⟨k3_legal, by norm_num [k3, cfgOf], ⟨rfl, rfl, rfl⟩, rfl, rfl, rfl⟩

/-- A non-empty operand exactly as long as the limit, and the empty one. -/
theorem test_hyps_AwgnRResult :
    ∀ x ∈ [ratsOf [0, 1, 0, -1], []],
      let s := { on (some k1) .awgnR (.reals x) with maxSeqLen := some x.length }
      s.operands = [.reals x] ∧ s.cfg = some k1 ∧ s.tooLong x.length = false := by decide +kernel

theorem test_hyps_AwgnCResult :
    ∀ z ∈ [[⟨.rat 1, .rat 0⟩, ⟨.rat 0, .rat 1⟩], ([] : List Cplx)],
      let s := { on (some k1) .awgnC (.cplx z) with maxSeqLen := some z.length }
      s.operands = [.cplx z] ∧ s.cfg = some k1 ∧ s.tooLong z.length = false := by decide +kernel

theorem test_hyps_NoisePowerFollowsSignalPower :
    ratsOf [0, 1, 0, -1] ≠ [] ∧ [(⟨.rat 1, .rat 0⟩ : Cplx)] ≠ [] := by decide +kernel

theorem test_hyps_AwgnRKeepsZeroSignal :
    let x := ratsOf [0, 0, 0]
    let s := on (some k1) .awgnR (.reals x)
    s.operands = [.reals x] ∧ s.cfg = some k1 ∧ s.tooLong x.length = false ∧ ∀ n, valAt x n = 0 :=
  ⟨rfl, rfl, rfl, fun n => by
    rcases n with _ | _ | _ | n <;> simp [valAt, ratsOf]⟩

/-- A command that takes draws, and one that raises. -/
theorem test_hyps_DrawAccounting :
    (∃ t, exec .awgnR (on (some k1) .awgnR (.reals (ratsOf [1]))) = .next t ∧ (t.err == 0) = true) ∧
    ∃ t, exec .awgnR (on none .awgnR (.reals (ratsOf [1]))) = .next t ∧ (t.err != 0) = true :=
  ⟨exists_next (fun t => t.err == 0) (by decide +kernel), exists_next (fun t => t.err != 0) (by decide +kernel)⟩

theorem test_hyps_LaterDrawsAreFresh :
    ∃ t, exec .awgnR (on (some k1) .awgnR (.reals (ratsOf [1]))) = .next t ∧ (t.err == 0) = true :=
  exists_next (fun t => t.err == 0) (by decide +kernel)

/-- Each clause: unequal lengths, two empty sequences, and two of one length. -/
theorem test_hyps_BerMeter :
    [true].length ≠ ([] : List Bit).length ∧ ([] : List Bit).length = ([] : List Bit).length ∧
    ([true].length = [false].length ∧ [true] ≠ []) := by decide

/-- A run that completes: BPSK, no error correction, one bit. -/
theorem test_hyps_RunScoresAdjustedLength :
    (let s := { block (some k1) with sticky := true, reply := some (.bits [true]), requests := [] }
     s.Inv ∧ s.cfg = some k1) ∧
    (match runOnce { block (some { k1 with fc := .rat 2 }) with maxSeqLen := some 4 } (fun _ => false) 1 with
      | .done r _ t => some (r.originalBits.length, t.drawsTaken)
      | _ => none) = some (1, 4) := ⟨⟨inv_witness [], rfl⟩, by decide +kernel⟩

theorem test_hyps_RunAbortsOnOddCodeLength :
    let c : Cfg := { k1 with scheme := 1, eccEn := true }
    (block (some c)).cfg = some c ∧ c.scheme = 1 ∧ c.eccEn = true ∧ (block (some c)).maxSeqLen = none ∧
      (0 : ℤ) < 3 ∧ ((adjustedLength 1 3 + 3) / 4) % 2 = 1 := by decide +kernel

theorem test_hyps_RunRejectsNegativeLength :
    (block (some k1)).cfg = some k1 ∧ adjustedLength k1.scheme (-1) < 0 := by decide +kernel

theorem test_hyps_RunZeroIsUndefined :
    (block (some k1)).cfg = some k1 ∧ (block (some k1)).maxSeqLen = none := ⟨rfl, rfl⟩

end Sys2Proof.Tests
end

