-- ==== Sys2Proof/Proofs/Scope.lean ====
section
/-! The length law of every command, and what a command does whose result is over `MAX_SEQ_LEN` (R7, R80, R109,
R139). -/
namespace Sys2Proof.Machine

variable {s : State}

/-! ### The length of what each command computes -/

/-- R109: seven bits for every four. -/
theorem hamEncode_length {b : List Bit} (h : b.length % 4 = 0) : (hamEncode b).length = 7 * b.length / 4 := by
  induction b, h using fourBlocks_induction with
  | nil => rfl
  | block m0 m1 m2 m3 rest hr h ih =>
    simp only [hamEncode_block, List.length_append, codeword_length, ih, List.length_cons]
    omega

/-- R109: four bits for every seven. -/
theorem hamDecode_length {b : List Bit} (h : b.length % 7 = 0) : (hamDecode b).length = 4 * b.length / 7 := by
  induction b, h using sevenBlocks_induction with
  | nil => rfl
  | block r0 r1 r2 r3 r4 r5 r6 rest hr h ih =>
    simp only [hamDecode_block, List.length_append, decodeBlock_length, ih, List.length_cons]
    omega

@[simp] theorem bpskModulate_length (c : Cfg) (b : List Bit) : (bpskModulate c b).length = b.length * c.ns := by
  simp [bpskModulate]

@[simp] theorem qpskModulate_length (c : Cfg) (b : List Bit) :
    (qpskModulate c b).length = b.length / 2 * c.ns := by
  simp [qpskModulate]

@[simp] theorem bpskDemodulate_length (c : Cfg) (x : List XReal) :
    (bpskDemodulate c x).length = x.length / c.ns := by
  simp [bpskDemodulate]

@[simp] theorem qpskDemodulate_length (c : Cfg) (x : List XReal) :
    (qpskDemodulate c x).length = 2 * (x.length / c.ns) := by
  simp [qpskDemodulate, qpskDecide, List.length_flatMap, mul_comm]

/-! ### A command whose checks pass goes on to delivery (R80, steps 2 to 5) -/

theorem exec_hamEnc_eq_deliver {b : List Bit} (ho : s.operands = [.bits b]) (hl : s.tooLong b.length = false)
    (h4 : b.length % 4 = 0) : exec .hamEnc s = deliverBits s (hamEncode b) := by
  simp only [exec, execHamEnc, withBits_of_bits ho hl, if_pos h4]

theorem exec_hamDec_eq_deliver {b : List Bit} (ho : s.operands = [.bits b]) (hl : s.tooLong b.length = false)
    (h7 : b.length % 7 = 0) : exec .hamDec s = deliverBits s (hamDecode b) := by
  simp only [exec, execHamDec, withBits_of_bits ho hl, if_pos h7]

theorem exec_bpskMod_eq_deliver {b : List Bit} {c : Cfg} (ho : s.operands = [.bits b])
    (hl : s.tooLong b.length = false) (hc : s.cfg = some c) :
    exec .bpskMod s = deliverReals s (bpskModulate c b) := by
  simp only [exec, execBpskMod, withBits_of_bits ho hl, withCfg_of_some hc]

theorem exec_qpskMod_eq_deliver {b : List Bit} {c : Cfg} (ho : s.operands = [.bits b])
    (hl : s.tooLong b.length = false) (hc : s.cfg = some c) (h2 : b.length % 2 = 0) :
    exec .qpskMod s = deliverReals s (qpskModulate c b) := by
  simp only [exec, execQpskMod, withBits_of_bits ho hl, withCfg_of_some hc, if_pos h2]

theorem exec_bpskDem_eq_deliver {x : List XReal} {c : Cfg} (ho : s.operands = [.reals x])
    (hl : s.tooLong x.length = false) (hc : s.cfg = some c) :
    exec .bpskDem s = deliverBits s (bpskDemodulate c x) := by
  simp only [exec, execBpskDem, withReals_of_reals ho hl, withCfg_of_some hc]

theorem exec_qpskDem_eq_deliver {x : List XReal} {c : Cfg} (ho : s.operands = [.reals x])
    (hl : s.tooLong x.length = false) (hc : s.cfg = some c) :
    exec .qpskDem s = deliverBits s (qpskDemodulate c x) := by
  simp only [exec, execQpskDem, withReals_of_reals ho hl, withCfg_of_some hc]

theorem exec_awgnR_eq_deliver {x : List XReal} {c : Cfg} (ho : s.operands = [.reals x])
    (hl : s.tooLong x.length = false) (hc : s.cfg = some c) :
    exec .awgnR s = deliverReals (s.takeDraws x.length) (awgnReal c x (s.draws x.length)) := by
  simp only [exec, execAwgnR, withReals_of_reals ho hl, withCfg_of_some hc]

theorem exec_awgnC_eq_deliver {z : List Cplx} {c : Cfg} (ho : s.operands = [.cplx z])
    (hl : s.tooLong z.length = false) (hc : s.cfg = some c) :
    exec .awgnC s = deliverCplx (s.takeDraws (2 * z.length))
      (awgnCplx c z (s.draws z.length) ((s.takeDraws z.length).draws z.length)) := by
  simp only [exec, execAwgnC, withCplx_of_cplx ho hl, withCfg_of_some hc]

/-! ### The length law, command by command -/

/-- `resultLength` as a relation: one constructor for each command that delivers a result, with the operand's shape
and the checks under which it does. -/
inductive LengthLaw (cfg : Option Cfg) : Instr → Operand → Nat → Prop where
  | hamEnc {b : List Bit} (h4 : b.length % 4 = 0) : LengthLaw cfg .hamEnc (.bits b) (7 * b.length / 4)
  | hamDec {b : List Bit} (h7 : b.length % 7 = 0) : LengthLaw cfg .hamDec (.bits b) (4 * b.length / 7)
  | bpskMod {b : List Bit} {c : Cfg} (hc : cfg = some c) : LengthLaw cfg .bpskMod (.bits b) (b.length * c.ns)
  | qpskMod {b : List Bit} {c : Cfg} (hc : cfg = some c) (h2 : b.length % 2 = 0) :
      LengthLaw cfg .qpskMod (.bits b) (b.length / 2 * c.ns)
  | bpskDem {x : List XReal} {c : Cfg} (hc : cfg = some c) : LengthLaw cfg .bpskDem (.reals x) (x.length / c.ns)
  | qpskDem {x : List XReal} {c : Cfg} (hc : cfg = some c) :
      LengthLaw cfg .qpskDem (.reals x) (2 * (x.length / c.ns))
  | awgnR {x : List XReal} {c : Cfg} (hc : cfg = some c) : LengthLaw cfg .awgnR (.reals x) x.length
  | awgnC {z : List Cplx} {c : Cfg} (hc : cfg = some c) : LengthLaw cfg .awgnC (.cplx z) z.length

theorem LengthLaw.of_resultLength : ∀ {i : Instr} {cfg : Option Cfg} {o : Operand} {n : Nat},
    resultLength i cfg [o] = some n → LengthLaw cfg i o n
  | .hamEnc, _, .bits b, n, h => by
    obtain ⟨h4, rfl⟩ : b.length % 4 = 0 ∧ 7 * b.length / 4 = n := by simpa [resultLength] using h
    exact .hamEnc h4
  | .hamDec, _, .bits b, n, h => by
    obtain ⟨h7, rfl⟩ : b.length % 7 = 0 ∧ 4 * b.length / 7 = n := by simpa [resultLength] using h
    exact .hamDec h7
  | .bpskMod, some _, .bits _, _, rfl => .bpskMod rfl
  | .qpskMod, some c, .bits b, n, h => by
    obtain ⟨h2, rfl⟩ : b.length % 2 = 0 ∧ b.length / 2 * c.ns = n := by simpa [resultLength] using h
    exact .qpskMod rfl h2
  | .bpskDem, some _, .reals _, _, rfl => .bpskDem rfl
  | .qpskDem, some _, .reals _, _, rfl => .qpskDem rfl
  | .awgnR, some _, .reals _, _, rfl => .awgnR rfl
  | .awgnC, some _, .cplx _, _, rfl => .awgnC rfl

theorem resultLength_eq_some_iff {i : Instr} {cfg : Option Cfg} {o : Operand} {n : Nat} :
    resultLength i cfg [o] = some n ↔ LengthLaw cfg i o n :=
  ⟨.of_resultLength, fun law => by cases law <;> simp_all [resultLength]⟩

/-! ### A result over the limit is refused -/

theorem exec_refuses_of_lengthLaw {i : Instr} {o : Operand} {n : Nat} (ho : s.operands = [o])
    (hl : s.tooLong o.length = false) (law : LengthLaw s.cfg i o n) (hn : s.tooLong n = true) :
    exec i s = .refused (.resultTooLong n) := by
  cases law with
  | hamEnc h4 => simp [exec_hamEnc_eq_deliver ho hl h4, deliverBits_of_tooLong, hamEncode_length h4, hn]
  | hamDec h7 => simp [exec_hamDec_eq_deliver ho hl h7, deliverBits_of_tooLong, hamDecode_length h7, hn]
  | bpskMod hc => simp [exec_bpskMod_eq_deliver ho hl hc, deliverReals_of_tooLong, hn]
  | qpskMod hc h2 => simp [exec_qpskMod_eq_deliver ho hl hc h2, deliverReals_of_tooLong, hn]
  | bpskDem hc => simp [exec_bpskDem_eq_deliver ho hl hc, deliverBits_of_tooLong, hn]
  | qpskDem hc => simp [exec_qpskDem_eq_deliver ho hl hc, deliverBits_of_tooLong, hn]
  | awgnR hc => simp [exec_awgnR_eq_deliver ho hl hc, deliverReals_of_tooLong, hn]
  | awgnC hc => simp [exec_awgnC_eq_deliver ho hl hc, deliverCplx_of_tooLong, hn]

/-- Settles O54: the commands' length laws are the lengths of what they deliver, and delivery refuses a sequence
over the limit. -/
theorem oversizeResultIsRefused : Obligations.OversizeResultIsRefused := by
  intro s i o n ho hl hr hn
  exact exec_refuses_of_lengthLaw ho hl (resultLength_eq_some_iff.mp hr) hn

end Sys2Proof.Machine
end

