-- ==== Sys2Proof/Proofs/State.lean ====
section
/-! The state of the block (10_state.md): what every step keeps, what changes STICKY and CFG, and on which parts of
the state a command's outcome depends. -/
namespace Sys2Proof.Machine

variable {s s' t : State}

/-! ### Command words -/

theorem opClass_append_opFn (op : Byte) : opClass op ++ opFn op = op := by
  rw [opClass, opFn, BitVec.extractLsb'_append_extractLsb'_eq_extractLsb' (by rfl)]
  simp

/-- R68: a command word decodes to a command only where it is that command's own word. -/
theorem eq_encode_of_decode {op : Byte} {i : Instr} (h : decode op = .ok i) : op = encode i := by
  have word_eq {m n : Nat} (hm : (opClass op).toNat = m) (hn : (opFn op).toNat = n) :
      op = BitVec.ofNat 4 m ++ BitVec.ofNat 4 n := by
    simp only [← hm, ← hn, BitVec.ofNat_toNat, BitVec.setWidth_eq, opClass_append_opFn]
  unfold decode at h
  split at h
  case h_10 => split at h <;> cases h
  all_goals
    next hcls hfn =>
      cases h
      exact word_eq hcls hfn

theorem decode_encode (i : Instr) : decode (encode i) = .ok i := by cases i <;> rfl

theorem tableWord_statement (i : Instr) : Laws.TableWord.Statement i := by
  cases i with
  | configure => exact Laws.TableWord.configure
  | hamEnc => exact Laws.TableWord.hamEnc
  | hamDec => exact Laws.TableWord.hamDec
  | bpskMod => exact Laws.TableWord.bpskMod
  | qpskMod => exact Laws.TableWord.qpskMod
  | bpskDem => exact Laws.TableWord.bpskDem
  | qpskDem => exact Laws.TableWord.qpskDem
  | awgnR => exact Laws.TableWord.awgnR
  | awgnC => exact Laws.TableWord.awgnC

/-- `step_next_cases` where the request served is known to be a command frame. -/
theorem step_command_cases {f : Frame} {rest : List Request} (hi : s.issues f rest) (h : step s = .next t) :
    (∃ i, decode f.op = .ok i ∧ Effect i ({ s with requests := rest }.accept f) t) ∨
    (∃ e, decode f.op = .error e ∧ t = ({ s with requests := rest }.accept f).raise .illegalCommand) := by
  rw [step_of_issues hi] at h
  cases hd : decode f.op with
  | ok i => exact .inl ⟨i, rfl, exec_effect (serveCommand_of_ok hd ▸ h)⟩
  | error e =>
    rw [serveCommand_of_reserved hd] at h
    cases h
    exact .inr ⟨e, rfl, rfl⟩

/-! ### The invariant -/

theorem ErrCode.code_legal {e : ErrCode} (he : e ≠ .lengthMismatch) :
    e.code = 0 ∨ e.code = 1 ∨ e.code = 2 ∨ e.code = 4 ∨ e.code = 5 := by
  cases e with
  | lengthMismatch => exact absurd rfl he
  | ok => decide
  | invalidArgument => decide
  | invalidLength => decide
  | illegalCommand => decide
  | notConfigured => decide

theorem Reply.length_of_not_isResult {r : Reply} (h : r.isResult = false) : r.length = 0 := by
  cases r with
  | bits b => cases h
  | reals x => cases h
  | cplx z => cases h
  | status v => rfl
  | scheme v => rfl
  | eccEn v => rfl
  | real v => rfl
  | ns v => rfl

@[simp] theorem cfgRegValue_isResult (c : Cfg) (r : CfgReg) : (cfgRegValue c r).isResult = false := by
  cases r <;> rfl

theorem State.tooLong_zero (s : State) : s.tooLong 0 = false :=
  (s.tooLong_eq_false_iff 0).mpr fun m _ => Nat.zero_le m

/-- A state in which no error is recorded and no command runs meets the invariant as soon as CFG is legal and the
reply fits. -/
theorem State.Inv.of_ok (hc : ∀ c, s.cfg = some c → c.Legal) (he : s.err = 0) (hi : s.current = none)
    (hr : ∀ r, s.reply = some r → s.tooLong r.length = false) : s.Inv where
  cfgLegal := hc
  errLegal := .inl he
  errSticky := fun h => absurd he h
  errNotConfigured := fun h => absurd (he.symm.trans h) (by decide)
  idle := hi
  resultOk := fun _ _ _ => he
  resultFits := hr

theorem State.Inv.raise {e : ErrCode} (hc : ∀ c, s.cfg = some c → c.Legal) (he : e ≠ .lengthMismatch)
    (hn : e = .notConfigured → s.cfg = none) : (s.raise e).Inv where
  cfgLegal := hc
  errLegal := ErrCode.code_legal he
  errSticky := fun _ => rfl
  errNotConfigured := fun h => hn (ErrCode.code_injective h)
  idle := rfl
  resultOk := fun _ h => nomatch h
  resultFits := fun _ h => nomatch h

theorem State.assertReset_inv (s : State) : s.assertReset.Inv :=
  .of_ok (fun _ h => nomatch h) rfl rfl fun _ h => nomatch h

/-- A register read puts its value, which is no result, in the reply's place. -/
theorem State.Inv.read (h : s.Inv) {v : Reply} (hv : v.isResult = false) (rest : List Request) :
    State.Inv { s with requests := rest, reply := some v } where
  cfgLegal := h.cfgLegal
  errLegal := h.errLegal
  errSticky := h.errSticky
  errNotConfigured := h.errNotConfigured
  idle := h.idle
  resultOk := fun r hr hres => by cases hr; rw [hv] at hres; cases hres
  resultFits := fun r hr => by cases hr; rw [Reply.length_of_not_isResult hv]; exact State.tooLong_zero _

/-- A command that goes on to a next state establishes the invariant, whatever ERR, STICKY and the reply were before. -/
theorem Effect.inv {i : Instr} (h : Effect i s t) (hc : ∀ c, s.cfg = some c → c.Legal) : t.Inv := by
  cases h with
  | raises e _ he' hn ht => subst ht; exact .raise hc he' fun h => (hn h).2
  | configures _ r _ hr ht =>
    subst ht
    exact .of_ok (fun c h => by cases h; exact cfgOfRec_legal hr) rfl rfl fun _ h => nomatch h
  | delivers _ r _ hl _ ht => subst ht; exact .of_ok hc rfl rfl fun _ h => by cases h; exact hl

/-- Settles O24: each request's outcome, as `step_next_cases` lists them, meets the invariant. -/
theorem everyStepKeepsInv : Obligations.EveryStepKeepsInv := by
  intro s t hs h
  rcases step_next_cases h with ⟨-, rfl⟩ | ⟨f, rest, i, -, -, hf⟩ | ⟨f, rest, e, -, -, rfl⟩ |
    ⟨f, rest, -, rfl⟩ | ⟨rest, -, rfl⟩ | ⟨rest, -, rfl⟩ | ⟨r, rest, c, -, -, rfl⟩
  · exact hs
  · exact hf.inv hs.cfgLegal
  · exact .raise hs.cfgLegal (by decide) fun h => nomatch h
  · exact State.assertReset_inv _
  · exact State.assertReset_inv _
  · exact hs.read rfl rest
  · exact hs.read (cfgRegValue_isResult c r) rest

/-- Settles O25: nothing is configured, recorded, running or delivered after reset, so `State.Inv.of_ok` applies. -/
theorem resetMeetsInv : Obligations.ResetMeetsInv :=
  .of_ok (fun _ h => nomatch h) rfl rfl fun _ h => nomatch h

/-- Settles O28: CFG is legal in every state that meets the invariant, and `Cfg.ns_eq` gives the floor. -/
theorem samplesPerSymbolIsFloor : Obligations.SamplesPerSymbolIsFloor :=
  fun _ c hs hc => ⟨c.ns_eq, (hs.cfgLegal c hc).ns⟩

/-! ### What changes STICKY and CFG -/

theorem Effect.sticky_iff {i : Instr} (h : Effect i s t) : t.sticky = true ↔ s.sticky = true ∨ t.err ≠ 0 := by
  cases h with
  | raises e he _ _ ht => subst ht; simp [he]
  | configures _ r _ _ ht => subst ht; simp
  | delivers _ r _ _ _ ht => subst ht; simp

theorem Effect.cfg_eq {i : Instr} (h : Effect i s t) (hi : i ≠ .configure) : t.cfg = s.cfg := by
  cases h with
  | raises e _ _ _ ht => subst ht; rfl
  | configures hi' => exact absurd hi' hi
  | delivers _ r _ _ _ ht => subst ht; rfl

theorem step_command_sticky_iff {f : Frame} {rest : List Request} (hi : s.issues f rest) (h : step s = .next t) :
    t.sticky = true ↔ s.sticky = true ∨ t.err ≠ 0 := by
  rcases step_command_cases hi h with ⟨i, -, hf⟩ | ⟨e, -, rfl⟩
  · simpa using hf.sticky_iff
  · simp

/-- Settles O12: a command's effects on STICKY are `Effect.sticky_iff`, and of the other requests only the two kinds
of reset touch it. -/
theorem stickyIsSetByErrorsAndClearedByReset : Obligations.StickyIsSetByErrorsAndClearedByReset := by
  intro s t h
  refine ⟨fun f rest hi => step_command_sticky_iff hi h, fun hs ht => ?_⟩
  rcases step_next_cases h with ⟨-, rfl⟩ | ⟨f, rest, i, hr, -, -⟩ | ⟨f, rest, e, hr, -, -⟩ |
    ⟨f, rest, hr, -⟩ | ⟨rest, hr, -⟩ | ⟨rest, -, rfl⟩ | ⟨r, rest, c, -, -, rfl⟩
  · simp [hs] at ht
  · simp [(step_command_sticky_iff hr h).mpr (.inl hs)] at ht
  · simp [(step_command_sticky_iff hr h).mpr (.inl hs)] at ht
  · exact ⟨rest, .inr ⟨f, hr⟩⟩
  · exact ⟨rest, .inl hr⟩
  · simp [hs] at ht
  · simp [hs] at ht

/-- Settles O13: of the requests that are no reset, only a command whose word decodes to CONFIGURE can change CFG,
and that word is 0x01. -/
theorem onlyConfigureAndResetChangeCfg : Obligations.OnlyConfigureAndResetChangeCfg := by
  intro s t h hne
  rcases step_next_cases h with ⟨-, rfl⟩ | ⟨f, rest, i, hr, hd, hf⟩ | ⟨f, rest, e, -, -, rfl⟩ |
    ⟨f, rest, hr, -⟩ | ⟨rest, hr, -⟩ | ⟨rest, -, rfl⟩ | ⟨r, rest, c, -, -, rfl⟩
  · exact absurd rfl hne
  · by_cases hi : i = .configure
    · subst hi
      exact ⟨rest, .inr (.inr ⟨f, hr, eq_encode_of_decode hd⟩)⟩
    · exact absurd (hf.cfg_eq hi) hne
  · exact absurd rfl hne
  · exact ⟨rest, .inr (.inl ⟨f, hr⟩)⟩
  · exact ⟨rest, .inl hr⟩
  · exact absurd rfl hne
  · exact absurd rfl hne

/-! ### The parts of CFG that data commands read (R24, R25) -/

/-- The configuration with other values of SCHEME and ECC_EN. -/
def Cfg.withMode (c : Cfg) (scheme : BitVec 2) (ecc : Bool) : Cfg := { c with scheme := scheme, eccEn := ecc }

section
variable (c : Cfg) (scheme : BitVec 2) (ecc : Bool)

theorem modulateFrom_withMode {σ : Type} (sample : σ → Nat → XReal) (j : Nat) (as : List σ) :
    modulateFrom (c.withMode scheme ecc) sample j as = modulateFrom c sample j as := by
  induction as generalizing j with
  | nil => rfl
  | cons a as ih => rw [modulateFrom, modulateFrom, ih]; rfl

@[simp] theorem bpskModulate_withMode (b : List Bit) : bpskModulate (c.withMode scheme ecc) b = bpskModulate c b :=
  modulateFrom_withMode c scheme ecc (bpskSample c) 0 b
@[simp] theorem qpskModulate_withMode (b : List Bit) : qpskModulate (c.withMode scheme ecc) b = qpskModulate c b :=
  modulateFrom_withMode c scheme ecc (qpskSample c) 0 (dibits b)
@[simp] theorem bpskDemodulate_withMode (x : List XReal) :
    bpskDemodulate (c.withMode scheme ecc) x = bpskDemodulate c x := rfl
@[simp] theorem qpskDemodulate_withMode (x : List XReal) :
    qpskDemodulate (c.withMode scheme ecc) x = qpskDemodulate c x := rfl
@[simp] theorem awgnReal_withMode (x g : List XReal) : awgnReal (c.withMode scheme ecc) x g = awgnReal c x g := rfl
@[simp] theorem awgnCplx_withMode (z : List Cplx) (g h : List XReal) :
    awgnCplx (c.withMode scheme ecc) z g h = awgnCplx c z g h := rfl
end

/-- Two configurations that differ at most in SCHEME and ECC_EN. -/
def Cfg.SameSignal (c c' : Cfg) : Prop := ∃ scheme ecc, c' = c.withMode scheme ecc

theorem Cfg.SameSignal.refl (c : Cfg) : c.SameSignal c := ⟨c.scheme, c.eccEn, rfl⟩

/-! ### Commands in two states

Both noninterference statements compare a command in a state `s` with the same command in a state `s'`: the second
outcome is the first with a fixed change `φ` made to its next state. -/

/-- An outcome with `φ` applied to the next state, where there is one. -/
def mapNext (φ : State → State) : Out → Out
  | .next t => .next (φ t)
  | .fault r => .fault r
  | .refused r => .refused r

/-- `s'` holds what a command reads of `s`, and both ways in which a data command ends carry `φ` along. -/
structure SameInputs (φ : State → State) (s s' : State) : Prop where
  operands : s'.operands = s.operands
  cfg : Option.Rel Cfg.SameSignal s.cfg s'.cfg
  noiseSeed : s'.noiseSeed = s.noiseSeed
  drawsTaken : s'.drawsTaken = s.drawsTaken
  maxSeqLen : s'.maxSeqLen = s.maxSeqLen
  raise : ∀ e, s'.raise e = φ (s.raise e)
  deliver : ∀ k r, (s'.takeDraws k).complete r = φ ((s.takeDraws k).complete r)

namespace SameInputs

variable {φ : State → State} (h : SameInputs φ s s')
include h

theorem tooLong_eq (n : Nat) : s'.tooLong n = s.tooLong n := by simp only [State.tooLong, h.maxSeqLen]

theorem draws_eq (k : Nat) : s'.draws k = s.draws k := by simp only [State.draws, h.noiseSeed, h.drawsTaken]

theorem draws_takeDraws_eq (j k : Nat) : (s'.takeDraws j).draws k = (s.takeDraws j).draws k := by
  simp only [State.draws, State.takeDraws_noiseSeed, State.takeDraws_drawsTaken, h.noiseSeed, h.drawsTaken]

theorem raised_map (e : ErrCode) : raised s' e = mapNext φ (raised s e) := congrArg Host.Outcome.next (h.raise e)

/-- The length check that guards both an operand and a result. -/
theorem limit_map (n : Nat) (r : Refusal) {o o' : Out} (ho : o' = mapNext φ o) :
    (if s'.tooLong n then .refused r else o') = mapNext φ (if s.tooLong n then .refused r else o) := by
  rw [h.tooLong_eq]
  split
  · rfl
  · exact ho

theorem deliverBits_map (b : List Bit) : deliverBits s' b = mapNext φ (deliverBits s b) :=
  h.limit_map _ _ (congrArg _ (h.deliver 0 _))

theorem deliverReals_map (k : Nat) (x : List XReal) :
    deliverReals (s'.takeDraws k) x = mapNext φ (deliverReals (s.takeDraws k) x) :=
  h.limit_map _ _ (congrArg _ (h.deliver k _))

theorem deliverCplx_map (k : Nat) (z : List Cplx) :
    deliverCplx (s'.takeDraws k) z = mapNext φ (deliverCplx (s.takeDraws k) z) :=
  h.limit_map _ _ (congrArg _ (h.deliver k _))

theorem withBits_map {body body' : List Bit → Out} (hb : ∀ b, body' b = mapNext φ (body b)) :
    withBits s' body' = mapNext φ (withBits s body) := by
  unfold withBits
  rw [h.operands]
  split
  · exact h.limit_map _ _ (hb _)
  · exact h.raised_map _

theorem withReals_map {body body' : List XReal → Out} (hb : ∀ x, body' x = mapNext φ (body x)) :
    withReals s' body' = mapNext φ (withReals s body) := by
  unfold withReals
  rw [h.operands]
  split
  · exact h.limit_map _ _ (hb _)
  · exact h.raised_map _

theorem withCplx_map {body body' : List Cplx → Out} (hb : ∀ z, body' z = mapNext φ (body z)) :
    withCplx s' body' = mapNext φ (withCplx s body) := by
  unfold withCplx
  rw [h.operands]
  split
  · exact h.limit_map _ _ (hb _)
  · exact h.raised_map _

theorem withCfgRec_map {body body' : CfgRec → Out} (hb : ∀ r, body' r = mapNext φ (body r)) :
    withCfgRec s' body' = mapNext φ (withCfgRec s body) := by
  unfold withCfgRec
  rw [h.operands]
  split
  · exact hb _
  · exact h.raised_map _

/-- It is enough that the body answers alike for configurations that differ in SCHEME and ECC_EN alone. -/
theorem withCfg_map {body body' : Cfg → Out}
    (hb : ∀ c scheme ecc, body' (c.withMode scheme ecc) = mapNext φ (body c)) :
    withCfg s' body' = mapNext φ (withCfg s body) := by
  unfold withCfg
  have hcfg := h.cfg
  generalize s.cfg = o, s'.cfg = o' at hcfg
  cases hcfg with
  | none => exact h.raised_map _
  | some hc => obtain ⟨scheme, ecc, rfl⟩ := hc; exact hb _ scheme ecc

/-- Every command carries `φ` along; CONFIGURE does where writing the six fields of CFG does. -/
theorem exec_map (i : Instr) (hconf : i = .configure →
      ∀ c, { s' with cfg := some c }.complete none = φ ({ s with cfg := some c }.complete none)) :
    exec i s' = mapNext φ (exec i s) := by
  cases i with
  | configure =>
    refine h.withCfgRec_map fun r => ?_
    split
    · exact congrArg _ (hconf rfl _)
    · exact h.raised_map _
  | hamEnc =>
    refine h.withBits_map fun b => ?_
    split
    · exact h.deliverBits_map _
    · exact h.raised_map _
  | hamDec =>
    refine h.withBits_map fun b => ?_
    split
    · exact h.deliverBits_map _
    · exact h.raised_map _
  | bpskMod =>
    refine h.withBits_map fun b => h.withCfg_map fun c scheme ecc => ?_
    rw [bpskModulate_withMode]
    exact h.deliverReals_map 0 _
  | qpskMod =>
    refine h.withBits_map fun b => h.withCfg_map fun c scheme ecc => ?_
    split
    · rw [qpskModulate_withMode]
      exact h.deliverReals_map 0 _
    · exact h.raised_map _
  | bpskDem =>
    refine h.withReals_map fun x => h.withCfg_map fun c scheme ecc => ?_
    rw [bpskDemodulate_withMode]
    exact h.deliverBits_map _
  | qpskDem =>
    refine h.withReals_map fun x => h.withCfg_map fun c scheme ecc => ?_
    rw [qpskDemodulate_withMode]
    exact h.deliverBits_map _
  | awgnR =>
    refine h.withReals_map fun x => h.withCfg_map fun c scheme ecc => ?_
    rw [awgnReal_withMode, h.draws_eq]
    exact h.deliverReals_map _ _
  | awgnC =>
    refine h.withCplx_map fun z => h.withCfg_map fun c scheme ecc => ?_
    rw [awgnCplx_withMode, h.draws_eq, h.draws_takeDraws_eq]
    exact h.deliverCplx_map _ _

end SameInputs

/-- Settles O23: a change of SCHEME and ECC_EN stands in CFG before and after the command alike, and no other effect
of a data command reads them (`Cfg.withMode`). -/
theorem schemeAndEccAreReadByNoCommand : Obligations.SchemeAndEccAreReadByNoCommand := by
  intro s t i c scheme ecc hi hc h
  have same : SameInputs (fun t => { t with cfg := some (c.withMode scheme ecc) }) s
      { s with cfg := some (c.withMode scheme ecc) } :=
    { operands := rfl
      cfg := hc ▸ .some ⟨scheme, ecc, rfl⟩
      noiseSeed := rfl
      drawsTaken := rfl
      maxSeqLen := rfl
      raise := fun _ => rfl
      deliver := fun _ _ => rfl }
  have hs := same.exec_map i fun hi' => absurd hi' hi
  rw [h] at hs
  exact hs

/-- Settles O22: two states that agree on what a command reads differ, once it has ended, in the host's own requests
alone, because every command that ends writes ERR, the reply and the command in execution. -/
theorem nothingElseCarriesOver : Obligations.NothingElseCarriesOver := by
  intro s s' t i ho hc hst hn hd hm h
  have same : SameInputs (fun t => { t with requests := s'.requests }) s s' :=
    { operands := ho
      cfg := by
        rw [hc]
        cases s.cfg with
        | none => exact .none
        | some c => exact .some (.refl c)
      noiseSeed := hn
      drawsTaken := hd
      maxSeqLen := hm
      raise := fun e => by simp only [State.raise, hc, hn, hd, hm]
      deliver := fun k r => by simp only [State.complete, State.takeDraws, hc, hst, hn, hd, hm] }
  have hs := same.exec_map i fun _ c => by simp only [State.complete, hst, hn, hd, hm]
  rw [h] at hs
  exact hs

/-! ### Placement, STATUS and host reads -/

/-- Settles O4: the word placed is at the head of the requests, decodes to its command and carries the operand of
`tableWord_statement`. -/
theorem fetchedWordRunsNext : Obligations.FetchedWordRunsNext := by
  intro s i
  obtain ⟨-, hframe, -⟩ := tableWord_statement i
  have hi : (s.withFetchWord 8 (encode i).toNat).issues ⟨encode i, [zeroOperand i.operandKind]⟩ s.requests :=
    congrArg (fun f => Request.command f :: s.requests) hframe
  rw [step_of_issues hi]
  exact serveCommand_of_ok (decode_encode i)

/-- R30, bit by bit. -/
theorem State.status_getLsbD (s : State) (i : Nat) :
    s.status.getLsbD i =
      if i < 3 then s.err.getLsbD i else if i = 3 then s.cfg.isSome else if i = 4 then s.sticky else false := by
  have layout : s.status.getLsbD i =
      if i < 3 then s.err.getLsbD i else if i - 3 < 1 then (BitVec.ofBool s.cfgd).getLsbD (i - 3) else
        if i - 3 - 1 < 1 then (BitVec.ofBool s.sticky).getLsbD (i - 3 - 1) else (0#3).getLsbD (i - 3 - 1 - 1) :=
    BitVec.getLsbD_append.trans (by rw [BitVec.getLsbD_append, BitVec.getLsbD_append])
  rw [layout]
  by_cases h3 : i < 3
  · rw [if_pos h3, if_pos h3]
  · obtain ⟨k, rfl⟩ := Nat.exists_eq_add_of_le (not_lt.mp h3)
    match k with
    | 0 => simp [State.cfgd]
    | 1 => simp
    | k + 2 =>
      have past : 3 + (k + 2) ≠ 4 := by omega
      simp [past]

/-- Settles O14, bit by bit from `State.status_getLsbD`. -/
theorem statusLayout : Obligations.StatusLayout := by
  intro s
  refine ⟨?_, ?_, ?_, ?_⟩
  · apply BitVec.eq_of_getLsbD_eq
    intro i hi
    rw [BitVec.getLsbD_extractLsb', s.status_getLsbD]
    simp [hi]
  · simp only [s.status_getLsbD]; rfl
  · simp only [s.status_getLsbD]; rfl
  · apply BitVec.eq_of_getLsbD_eq
    intro i hi
    rw [BitVec.getLsbD_extractLsb', s.status_getLsbD, if_neg (by omega), if_neg (by omega), if_neg (by omega)]
    simp

/-- Settles O15: the values stand in `State.reset`, and STATUS is computed from them. -/
theorem resetState : Obligations.ResetState :=
  ⟨rfl, rfl, rfl, State.reset_status, rfl, rfl⟩

/-- Settles O17: the three cases of a host read; the value of NS is `Cfg.ns_eq`. -/
theorem hostReads : Obligations.HostReads := by
  refine ⟨fun s rest hr => step_of_cons hr, fun s rest r c hr hc => ?_, fun s rest r hr hc => ?_⟩
  · refine ⟨cfgRegValue c r, ?_, ?_⟩
    · simp only [step_of_cons hr, serve, readCfg, hc]
    · cases r with
      | ns => exact congrArg Reply.ns c.ns_eq
      | scheme => rfl
      | eccEn => rfl
      | fc => rfl
      | fs => rfl
      | tb => rfl
      | snrDb => rfl
  · simp only [step_of_cons hr, serve, readCfg, hc]

end Sys2Proof.Machine
end

section
/-! A command issued again (20_memory.md R45). A command that raised meets STICKY already set, one that delivered
meets what it read unchanged, and CONFIGURE reads nothing that it writes. -/
namespace Sys2Proof.Machine

variable {s : State}

/-- R175: the AWGN commands alone take draws. -/
theorem drawCount_of_not_awgn {i : Instr} (hr : i ≠ .awgnR) (hc : i ≠ .awgnC) (os : List Operand) :
    drawCount i os = 0 := by
  cases i with
  | awgnR => exact absurd rfl hr
  | awgnC => exact absurd rfl hc
  | _ => rfl

theorem Cfg.SameSignal.option_refl (o : Option Cfg) : Option.Rel Cfg.SameSignal o o := by
  cases o with
  | none => exact .none
  | some c => exact .some (.refl c)

/-- The outcome of a successful CONFIGURE (R81). -/
theorem exec_configure_of_legal {r : CfgRec} (ho : s.operands = [.cfg r]) (hr : cfgRecLegal r = true) :
    exec .configure s = .next ({ s with cfg := some (cfgOfRec r) }.complete none) :=
  (withCfgRec_of_cfg ho).trans (if_pos hr)

/-- R222: the state an error leaves differs, in what a command reads, from the state before it in STICKY alone, and no
command's way to an error depends on STICKY. -/
theorem exec_again_of_raises {i : Instr} {e : ErrCode} (h : exec i s = .next (s.raise e)) :
    exec i { s.raise e with current := s.current } = .next (s.raise e) := by
  have same : SameInputs (fun u => { u with sticky := true }) s { s.raise e with current := s.current } :=
    { operands := rfl
      cfg := Cfg.SameSignal.option_refl s.cfg
      noiseSeed := rfl
      drawsTaken := rfl
      maxSeqLen := rfl
      raise := fun _ => rfl
      deliver := fun _ _ => rfl }
  have again := same.exec_map i fun _ _ => rfl
  rw [h] at again
  exact again

/-- R37: a data command that takes no draw leaves all that it reads as it was. -/
theorem exec_again_of_delivers {i : Instr} {r : Reply} (h : exec i s = .next (s.complete (some r))) :
    exec i { s.complete (some r) with current := s.current } = .next (s.complete (some r)) :=
  nothingElseCarriesOver s _ _ i rfl rfl rfl rfl rfl rfl h

/-- Settles O21, by the three ways in which a command goes on to a next state (`Effect`). -/
theorem nonAwgnCommandsAreIdempotent : Obligations.NonAwgnCommandsAreIdempotent := by
  intro s t i hir hic h
  cases exec_effect h with
  | raises e _ _ _ ht => subst ht; exact exec_again_of_raises h
  | configures hi r ho hr ht =>
    subst hi ht
    exact exec_configure_of_legal ho hr
  | delivers _ r _ _ _ ht =>
    rw [drawCount_of_not_awgn hir hic] at ht
    subst ht
    exact exec_again_of_delivers h

end Sys2Proof.Machine
end

section
/-! The command words and the frames (30_encoding.md): which words decode, what a reserved word and a malformed frame
do, and the kind of what a command delivers. -/
namespace Sys2Proof.Machine

variable {s t : State}

/-! ### Command words (R62, R66, R68) -/

theorem decode_eq_ok_iff {op : Byte} {i : Instr} : decode op = .ok i ↔ op = encode i :=
  ⟨eq_encode_of_decode, fun h => h ▸ decode_encode i⟩

theorem encode_injective : Function.Injective encode := fun i _ h =>
  Except.ok.inj ((decode_encode i).symm.trans (decode_eq_ok_iff.mpr h))

theorem exists_decode_eq_error {op : Byte} (h : ∀ i, op ≠ encode i) : ∃ e, decode op = .error e := by
  cases hd : decode op with
  | ok i => exact absurd (eq_encode_of_decode hd) (h i)
  | error e => exact ⟨e, rfl⟩

/-- Settles O2, by `decode_eq_ok_iff`; the decoder's two answers are the two constructors of `Except`. -/
theorem decodeIsTheInverseOfEncode : Obligations.DecodeIsTheInverseOfEncode := by
  refine fun op => ⟨fun i => decode_eq_ok_iff, ?_⟩
  cases decode op with
  | ok i => exact .inl ⟨i, rfl⟩
  | error e => exact .inr ⟨e, rfl⟩

/-- The nine commands, in the order of the opcode map's rows. -/
def commands : List Instr := [.configure, .hamEnc, .hamDec, .bpskMod, .qpskMod, .bpskDem, .qpskDem, .awgnR, .awgnC]

theorem mem_commands (i : Instr) : i ∈ commands := by cases i <;> decide

theorem commands_nodup : commands.Nodup := by decide

/-- Settles O1: the rows and the words of the opcode map are those of `commands`, in order. -/
theorem opcodeMapWordsDecode : Obligations.OpcodeMapWordsDecode := by
  constructor
  · intro row hrow
    have hrow : row ∈ commands.map fun i => (encode i, i, i.operandKind, i.resultKind) := hrow
    obtain ⟨i, -, rfl⟩ := List.mem_map.mp hrow
    exact ⟨decode_encode i, rfl, rfl⟩
  · intro op hop
    have hop : op ∉ commands.map encode := hop
    exact exists_decode_eq_error fun i hi => hop (hi ▸ List.mem_map_of_mem (mem_commands i))

/-- The values of OP that are not reserved, as numbers. -/
def assignedWords : List Nat := commands.map fun i => (encode i).toNat

theorem assignedWords_nodup : assignedWords.Nodup :=
  commands_nodup.map fun _ _ h => encode_injective (BitVec.eq_of_toNat_eq h)

theorem mem_assignedWords_iff {n : Nat} :
    n ∈ assignedWords ↔ n < 256 ∧ (decode (BitVec.ofNat 8 n)).toOption.isSome = true := by
  rw [assignedWords, List.mem_map]
  constructor
  · rintro ⟨i, -, rfl⟩
    refine ⟨(encode i).isLt, ?_⟩
    rw [BitVec.ofNat_toNat, BitVec.setWidth_eq, decode_encode]
    rfl
  · rintro ⟨hn, h⟩
    cases hd : decode (BitVec.ofNat 8 n) with
    | error e => rw [hd] at h; cases h
    | ok i =>
      refine ⟨i, mem_commands i, ?_⟩
      rw [← eq_encode_of_decode hd, BitVec.toNat_ofNat, Nat.mod_eq_of_lt hn]

/-- R66: the words that are not reserved are nine distinct ones, so 256 - 9 are. -/
theorem reservedWords_length :
    ((List.range 256).filter fun n => (decode (BitVec.ofNat 8 n)).toOption == none).length = 247 := by
  have assigned : ((List.range 256).filter fun n => !((decode (BitVec.ofNat 8 n)).toOption == none)).Perm
      assignedWords :=
    (List.perm_ext_iff_of_nodup (List.nodup_range.filter _) assignedWords_nodup).mpr fun n => by
      simp [mem_assignedWords_iff]
  have nine : assignedWords.length = 9 := rfl
  have total := (List.range 256).length_eq_length_filter_add
    fun n => (decode (BitVec.ofNat 8 n)).toOption == none
  rw [assigned.length_eq, List.length_range] at total
  omega

/-- Settles O6: the step of a reserved word is the error that the decoder's answer stands for
(`serveCommand_of_reserved`). -/
theorem reservedWordRaisesIllegalCommand : Obligations.ReservedWordRaisesIllegalCommand := by
  refine ⟨fun s f rest hi hres => ?_, reservedWords_length⟩
  obtain ⟨e, he⟩ := exists_decode_eq_error hres
  exact ⟨_, (step_of_issues hi).trans (serveCommand_of_reserved he), .of_accept_raise _ f _⟩

/-! ### Malformed frames (R67) -/

theorem operands_ne_of_malformed {i : Instr} {o : Operand} (h : i.operandsFit s.operands = false)
    (hk : o.kind = i.operandKind) : s.operands ≠ [o] := by
  intro ho
  simp [ho, Instr.operandsFit, hk] at h

theorem withBits_of_ne {body : List Bit → Out} (h : ∀ b, s.operands ≠ [.bits b]) :
    withBits s body = raised s .illegalCommand := by
  rcases withBits_cases s body with ⟨b, ho, -⟩ | ⟨b, ho, -⟩ | ⟨-, hw⟩
  · exact absurd ho (h b)
  · exact absurd ho (h b)
  · exact hw

theorem withReals_of_ne {body : List XReal → Out} (h : ∀ x, s.operands ≠ [.reals x]) :
    withReals s body = raised s .illegalCommand := by
  rcases withReals_cases s body with ⟨x, ho, -⟩ | ⟨x, ho, -⟩ | ⟨-, hw⟩
  · exact absurd ho (h x)
  · exact absurd ho (h x)
  · exact hw

theorem withCplx_of_ne {body : List Cplx → Out} (h : ∀ z, s.operands ≠ [.cplx z]) :
    withCplx s body = raised s .illegalCommand := by
  rcases withCplx_cases s body with ⟨z, ho, -⟩ | ⟨z, ho, -⟩ | ⟨-, hw⟩
  · exact absurd ho (h z)
  · exact absurd ho (h z)
  · exact hw

theorem withCfgRec_of_ne {body : CfgRec → Out} (h : ∀ r, s.operands ≠ [.cfg r]) :
    withCfgRec s body = raised s .illegalCommand := by
  rcases withCfgRec_cases s body with ⟨r, ho, -⟩ | ⟨-, hw⟩
  · exact absurd ho (h r)
  · exact hw

/-- The operand's shape is the first thing that every command checks (R80, step 2). -/
theorem exec_of_malformed {i : Instr} (h : i.operandsFit s.operands = false) :
    exec i s = raised s .illegalCommand := by
  cases i with
  | configure => exact withCfgRec_of_ne fun _ => operands_ne_of_malformed h rfl
  | hamEnc => exact withBits_of_ne fun _ => operands_ne_of_malformed h rfl
  | hamDec => exact withBits_of_ne fun _ => operands_ne_of_malformed h rfl
  | bpskMod => exact withBits_of_ne fun _ => operands_ne_of_malformed h rfl
  | qpskMod => exact withBits_of_ne fun _ => operands_ne_of_malformed h rfl
  | bpskDem => exact withReals_of_ne fun _ => operands_ne_of_malformed h rfl
  | qpskDem => exact withReals_of_ne fun _ => operands_ne_of_malformed h rfl
  | awgnR => exact withReals_of_ne fun _ => operands_ne_of_malformed h rfl
  | awgnC => exact withCplx_of_ne fun _ => operands_ne_of_malformed h rfl

/-- Settles O7, by `exec_of_malformed`. -/
theorem malformedFrameRaisesIllegalCommand : Obligations.MalformedFrameRaisesIllegalCommand :=
  fun _ _ h => ⟨_, exec_of_malformed h, .of_raise _ _⟩

/-! ### The kind of a result (R60, R62, R63) -/

/-- Where the outcome goes on to a next state without an error, the kind of what it delivers is `k`. -/
def ResultKindIs (k : Option OperandKind) (o : Out) : Prop :=
  ∀ t, o = .next t → t.err = 0 → t.reply.bind Reply.kind? = k

section
variable {k : Option OperandKind}

theorem ResultKindIs.of_raised {e : ErrCode} (he : e ≠ .ok) : ResultKindIs k (raised s e) := by
  intro t h herr
  cases h
  exact absurd ((ErrCode.code_eq_zero_iff e).mp herr) he

theorem ResultKindIs.of_complete (r : Option Reply) :
    ResultKindIs (r.bind Reply.kind?) (.next (s.complete r)) := by
  intro t h _
  cases h
  rfl

theorem ResultKindIs.of_refused (r : Refusal) : ResultKindIs k (.refused r) := fun _ h => nomatch h

theorem ResultKindIs.of_ite {p : Prop} [Decidable p] {o o' : Out} (h : ResultKindIs k o) (h' : ResultKindIs k o') :
    ResultKindIs k (if p then o else o') := by
  split
  · exact h
  · exact h'

theorem ResultKindIs.of_deliverBits (b : List Bit) : ResultKindIs (some .bitSeq) (deliverBits s b) :=
  .of_ite (.of_refused _) (.of_complete (some (.bits b)))

theorem ResultKindIs.of_deliverReals (x : List XReal) : ResultKindIs (some .realSeq) (deliverReals s x) :=
  .of_ite (.of_refused _) (.of_complete (some (.reals (x.map XReal.norm))))

theorem ResultKindIs.of_deliverCplx (z : List Cplx) : ResultKindIs (some .cplxSeq) (deliverCplx s z) :=
  .of_ite (.of_refused _) (.of_complete (some (.cplx (z.map Cplx.norm))))

theorem ResultKindIs.of_withBits {body : List Bit → Out} (hb : ∀ b, ResultKindIs k (body b)) :
    ResultKindIs k (withBits s body) := by
  rcases withBits_cases s body with ⟨b, -, -, hw⟩ | ⟨b, -, -, hw⟩ | ⟨-, hw⟩ <;> rw [hw]
  · exact hb b
  · exact .of_refused _
  · exact .of_raised (by decide)

theorem ResultKindIs.of_withReals {body : List XReal → Out} (hb : ∀ x, ResultKindIs k (body x)) :
    ResultKindIs k (withReals s body) := by
  rcases withReals_cases s body with ⟨x, -, -, hw⟩ | ⟨x, -, -, hw⟩ | ⟨-, hw⟩ <;> rw [hw]
  · exact hb x
  · exact .of_refused _
  · exact .of_raised (by decide)

theorem ResultKindIs.of_withCplx {body : List Cplx → Out} (hb : ∀ z, ResultKindIs k (body z)) :
    ResultKindIs k (withCplx s body) := by
  rcases withCplx_cases s body with ⟨z, -, -, hw⟩ | ⟨z, -, -, hw⟩ | ⟨-, hw⟩ <;> rw [hw]
  · exact hb z
  · exact .of_refused _
  · exact .of_raised (by decide)

theorem ResultKindIs.of_withCfgRec {body : CfgRec → Out} (hb : ∀ r, ResultKindIs k (body r)) :
    ResultKindIs k (withCfgRec s body) := by
  rcases withCfgRec_cases s body with ⟨r, -, hw⟩ | ⟨-, hw⟩ <;> rw [hw]
  · exact hb r
  · exact .of_raised (by decide)

theorem ResultKindIs.of_withCfg {body : Cfg → Out} (hb : ∀ c, ResultKindIs k (body c)) :
    ResultKindIs k (withCfg s body) := by
  rcases withCfg_cases s body with ⟨c, -, hw⟩ | ⟨-, hw⟩ <;> rw [hw]
  · exact hb c
  · exact .of_raised (by decide)

end

theorem exec_resultKindIs (i : Instr) (s : State) : ResultKindIs i.resultKind (exec i s) := by
  cases i with
  | configure => exact .of_withCfgRec fun r => .of_ite (.of_complete none) (.of_raised (by decide))
  | hamEnc => exact .of_withBits fun b => .of_ite (.of_deliverBits _) (.of_raised (by decide))
  | hamDec => exact .of_withBits fun b => .of_ite (.of_deliverBits _) (.of_raised (by decide))
  | bpskMod => exact .of_withBits fun b => .of_withCfg fun c => .of_deliverReals _
  | qpskMod => exact .of_withBits fun b => .of_withCfg fun c => .of_ite (.of_deliverReals _) (.of_raised (by decide))
  | bpskDem => exact .of_withReals fun x => .of_withCfg fun c => .of_deliverBits _
  | qpskDem => exact .of_withReals fun x => .of_withCfg fun c => .of_deliverBits _
  | awgnR => exact .of_withReals fun x => .of_withCfg fun c => .of_deliverReals _
  | awgnC => exact .of_withCplx fun z => .of_withCfg fun c => .of_deliverCplx _

theorem Effect.reply_of_configure (h : Effect .configure s t) : t.reply = none := by
  cases h with
  | raises e _ _ _ ht => subst ht; rfl
  | configures _ r _ _ ht => subst ht; rfl
  | delivers hi => exact absurd rfl hi

theorem Effect.reply_of_err_ne_zero {i : Instr} (h : Effect i s t) (herr : t.err ≠ 0) : t.reply = none := by
  cases h with
  | raises e _ _ _ ht => subst ht; rfl
  | configures _ r _ _ ht => subst ht; exact absurd rfl herr
  | delivers _ r _ _ _ ht => subst ht; exact absurd rfl herr

/-- Settles O9: the kind is `exec_resultKindIs`, and `Effect` tells where no result is delivered. -/
theorem resultKindFollowsOpcode : Obligations.ResultKindFollowsOpcode := by
  intro s t i h
  refine ⟨exec_resultKindIs i s t h, fun _ hi => ?_, (exec_effect h).reply_of_err_ne_zero⟩
  subst hi
  exact (exec_effect h).reply_of_configure

end Sys2Proof.Machine
end

section
/-! The command cycle (40_control.md): what a step runs, how CONFIGURE answers a record, and the two places where the
length limit stops a command. -/
namespace Sys2Proof.Machine

variable {s : State}

/-! ### The step (R68, R80) -/

/-- Settles O3: the step serves the frame at the head of the requests, and serving it is its command's `exec`. -/
theorem stepRunsDecodedCommand : Obligations.StepRunsDecodedCommand :=
  fun _ _ _ _ hi hd => (step_of_issues hi).trans (serveCommand_of_ok hd)

/-! ### CONFIGURE (R64, R81) -/

/-- `MODE[1:0]` as a number. -/
theorem schemeField_toNat (mode : Byte) : (schemeField mode).toNat = mode.toNat % 4 := by
  simp [schemeField]

/-- `MODE[7:3]` is all that is left of MODE's number above its three low bits. -/
theorem reservedField_eq_zero_iff (mode : Byte) : reservedField mode = 0 ↔ mode.toNat / 8 = 0 := by
  have hfield : (reservedField mode).toNat = mode.toNat / 8 := by
    rw [reservedField, BitVec.extractLsb'_toNat, Nat.shiftRight_eq_div_pow]
    have := mode.isLt
    omega
  rw [← hfield]
  exact BitVec.toNat_inj.symm

theorem cfgRecLegal_iff_legalRecord (r : CfgRec) : cfgRecLegal r = true ↔ LegalRecord r := by
  rw [cfgRecLegal_iff, reservedField_eq_zero_iff, schemeField_toNat]
  exact ⟨fun ⟨hres, hsch, hfc, hfs, htb, hns⟩ => ⟨hres, hsch, hfc, hfs, htb, hns⟩,
    fun ⟨hres, hsch, hfc, hfs, htb, hns⟩ => ⟨hres, hsch, hfc, hfs, htb, hns⟩⟩

theorem exec_configure_of_illegal {r : CfgRec} (ho : s.operands = [.cfg r]) (hr : cfgRecLegal r ≠ true) :
    exec .configure s = raised s .invalidArgument :=
  (withCfgRec_of_cfg ho).trans (if_neg hr)

/-- Settles O26: the checks of CONFIGURE are exactly the legal record's clauses, so it writes or raises with them. -/
theorem configureWritesAllOrNothing : Obligations.ConfigureWritesAllOrNothing := by
  intro s r ho
  constructor
  · intro hr
    exact ⟨_, exec_configure_of_legal ho ((cfgRecLegal_iff_legalRecord r).mpr hr), rfl, .of_complete _ none,
      cfgOfRec r, rfl, schemeField_toNat r.mode, rfl, rfl, rfl, rfl, rfl⟩
  · intro hr
    exact ⟨_, exec_configure_of_illegal ho (mt (cfgRecLegal_iff_legalRecord r).mp hr), .of_raise _ _⟩

/-! ### An operand over the limit (R80, step 2) -/

theorem withBits_of_tooLong {b : List Bit} {body : List Bit → Out} (ho : s.operands = [.bits b])
    (hl : s.tooLong b.length = true) : withBits s body = .refused (.operandTooLong b.length) := by
  simp [withBits, ho, hl]

theorem withReals_of_tooLong {x : List XReal} {body : List XReal → Out} (ho : s.operands = [.reals x])
    (hl : s.tooLong x.length = true) : withReals s body = .refused (.operandTooLong x.length) := by
  simp [withReals, ho, hl]

theorem withCplx_of_tooLong {z : List Cplx} {body : List Cplx → Out} (ho : s.operands = [.cplx z])
    (hl : s.tooLong z.length = true) : withCplx s body = .refused (.operandTooLong z.length) := by
  simp [withCplx, ho, hl]

/-- Every command with a sequence operand checks its length before anything else of its own. -/
theorem exec_of_operandTooLong : ∀ {i : Instr} {o : Operand}, i ≠ .configure → s.operands = [o] →
    o.kind = i.operandKind → s.tooLong o.length = true → exec i s = .refused (.operandTooLong o.length)
  | .configure, _, hi, _, _, _ => absurd rfl hi
  | .hamEnc, .bits _, _, ho, _, hl => withBits_of_tooLong ho hl
  | .hamDec, .bits _, _, ho, _, hl => withBits_of_tooLong ho hl
  | .bpskMod, .bits _, _, ho, _, hl => withBits_of_tooLong ho hl
  | .qpskMod, .bits _, _, ho, _, hl => withBits_of_tooLong ho hl
  | .bpskDem, .reals _, _, ho, _, hl => withReals_of_tooLong ho hl
  | .qpskDem, .reals _, _, ho, _, hl => withReals_of_tooLong ho hl
  | .awgnR, .reals _, _, ho, _, hl => withReals_of_tooLong ho hl
  | .awgnC, .cplx _, _, ho, _, hl => withCplx_of_tooLong ho hl

/-- Settles O18, by `exec_of_operandTooLong`. -/
theorem oversizeOperandIsRefused : Obligations.OversizeOperandIsRefused :=
  fun _ _ _ => exec_of_operandTooLong

/-! ### A command within the limit completes -/

/-- The outcome goes on to a next state: it is neither a fault nor a refusal. -/
def Completes (o : Out) : Prop := ∃ t, o = .next t

theorem Completes.of_raised (e : ErrCode) : Completes (raised s e) := ⟨_, rfl⟩

theorem Completes.of_ite {p : Prop} [Decidable p] {o o' : Out} (h : p → Completes o) (h' : ¬ p → Completes o') :
    Completes (if p then o else o') := by
  split
  · next hp => exact h hp
  · next hp => exact h' hp

theorem Completes.of_deliverBits {b : List Bit} (h : s.tooLong b.length = false) : Completes (deliverBits s b) :=
  ⟨_, deliverBits_of_fits h⟩

theorem Completes.of_deliverReals {x : List XReal} (h : s.tooLong x.length = false) : Completes (deliverReals s x) :=
  ⟨_, deliverReals_of_fits h⟩

theorem Completes.of_deliverCplx {z : List Cplx} (h : s.tooLong z.length = false) : Completes (deliverCplx s z) :=
  ⟨_, deliverCplx_of_fits h⟩

theorem Completes.of_withBits {b : List Bit} {body : List Bit → Out} (ho : s.operands = [.bits b])
    (hl : s.tooLong b.length = false) (hb : Completes (body b)) : Completes (withBits s body) :=
  withBits_of_bits ho hl ▸ hb

theorem Completes.of_withReals {x : List XReal} {body : List XReal → Out} (ho : s.operands = [.reals x])
    (hl : s.tooLong x.length = false) (hb : Completes (body x)) : Completes (withReals s body) :=
  withReals_of_reals ho hl ▸ hb

theorem Completes.of_withCplx {z : List Cplx} {body : List Cplx → Out} (ho : s.operands = [.cplx z])
    (hl : s.tooLong z.length = false) (hb : Completes (body z)) : Completes (withCplx s body) :=
  withCplx_of_cplx ho hl ▸ hb

theorem Completes.of_withCfgRec {body : CfgRec → Out} (hb : ∀ r, Completes (body r)) :
    Completes (withCfgRec s body) := by
  rcases withCfgRec_cases s body with ⟨r, -, hw⟩ | ⟨-, hw⟩ <;> rw [hw]
  · exact hb r
  · exact .of_raised _

theorem Completes.of_withCfg {body : Cfg → Out} (hb : ∀ c, s.cfg = some c → Completes (body c)) :
    Completes (withCfg s body) := by
  rcases withCfg_cases s body with ⟨c, hc, hw⟩ | ⟨-, hw⟩ <;> rw [hw]
  · exact hb c hc
  · exact .of_raised _

/-- CONFIGURE has no sequence, so no length stops it. -/
theorem exec_configure_completes (s : State) : Completes (exec .configure s) :=
  .of_withCfgRec fun _ => .of_ite (fun _ => ⟨_, rfl⟩) fun _ => .of_raised _

/-- A well-formed command completes when its operand, and the result its length law gives it if any, fit. -/
theorem exec_completes : ∀ {i : Instr} {o : Operand}, s.operands = [o] → o.kind = i.operandKind →
    s.tooLong o.length = false → (∀ n, LengthLaw s.cfg i o n → s.tooLong n = false) → Completes (exec i s)
  | .configure, _, _, _, _, _ => exec_configure_completes s
  | .hamEnc, .bits _, ho, _, hl, hn => .of_withBits ho hl <| .of_ite
      (fun h4 => .of_deliverBits (hamEncode_length h4 ▸ hn _ (.hamEnc h4))) fun _ => .of_raised _
  | .hamDec, .bits _, ho, _, hl, hn => .of_withBits ho hl <| .of_ite
      (fun h7 => .of_deliverBits (hamDecode_length h7 ▸ hn _ (.hamDec h7))) fun _ => .of_raised _
  | .bpskMod, .bits b, ho, _, hl, hn => .of_withBits ho hl <| .of_withCfg fun c hc =>
      .of_deliverReals (bpskModulate_length c b ▸ hn _ (.bpskMod hc))
  | .qpskMod, .bits b, ho, _, hl, hn => .of_withBits ho hl <| .of_withCfg fun c hc => .of_ite
      (fun h2 => .of_deliverReals (qpskModulate_length c b ▸ hn _ (.qpskMod hc h2))) fun _ => .of_raised _
  | .bpskDem, .reals x, ho, _, hl, hn => .of_withReals ho hl <| .of_withCfg fun c hc =>
      .of_deliverBits (bpskDemodulate_length c x ▸ hn _ (.bpskDem hc))
  | .qpskDem, .reals x, ho, _, hl, hn => .of_withReals ho hl <| .of_withCfg fun c hc =>
      .of_deliverBits (qpskDemodulate_length c x ▸ hn _ (.qpskDem hc))
  | .awgnR, .reals _, ho, _, hl, hn => .of_withReals ho hl <| .of_withCfg fun _ hc =>
      .of_deliverReals (by simpa using hn _ (.awgnR hc))
  | .awgnC, .cplx _, ho, _, hl, hn => .of_withCplx ho hl <| .of_withCfg fun _ hc =>
      .of_deliverCplx (by simpa using hn _ (.awgnC hc))

/-! ### Where a command stops -/

/-- R67: a frame is well formed where it carries exactly one operand, of the command's kind. -/
theorem operandsFit_iff {i : Instr} {os : List Operand} :
    i.operandsFit os = true ↔ ∃ o, os = [o] ∧ o.kind = i.operandKind := by
  match os with
  | [] => simp [Instr.operandsFit]
  | [o] => simp [Instr.operandsFit]
  | _ :: _ :: _ => simp [Instr.operandsFit]

/-- Every outcome of a command, by the lengths of its operand and of its result (R7, R80). -/
theorem exec_cases (i : Instr) (s : State) :
    Completes (exec i s) ∨ ∃ o, s.operands = [o] ∧ o.kind = i.operandKind ∧
      ((s.tooLong o.length = true ∧ exec i s = .refused (.operandTooLong o.length)) ∨
        (s.tooLong o.length = false ∧ ∃ n, LengthLaw s.cfg i o n ∧ s.tooLong n = true ∧
          exec i s = .refused (.resultTooLong n))) := by
  cases hfit : i.operandsFit s.operands with
  | false => exact .inl ⟨_, exec_of_malformed hfit⟩
  | true =>
    obtain ⟨o, ho, hk⟩ := operandsFit_iff.mp hfit
    cases hl : s.tooLong o.length with
    | true =>
      by_cases hi : i = .configure
      · exact .inl (hi ▸ exec_configure_completes s)
      · exact .inr ⟨o, ho, hk, .inl ⟨hl, exec_of_operandTooLong hi ho hk hl⟩⟩
    | false =>
      by_cases hover : ∃ n, LengthLaw s.cfg i o n ∧ s.tooLong n = true
      · obtain ⟨n, law, hn⟩ := hover
        exact .inr ⟨o, ho, hk, .inr ⟨hl, n, law, hn, exec_refuses_of_lengthLaw ho hl law hn⟩⟩
      · exact .inl (exec_completes ho hk hl fun n law => by simpa using fun hn => hover ⟨n, law, hn⟩)

/-- Settles O19: outside completion, `exec_cases` leaves the two refusals alone. -/
theorem commandsStopOnlyForLength : Obligations.CommandsStopOnlyForLength := by
  intro s i
  rcases exec_cases i s with ⟨t, ht⟩ | ⟨o, ho, hk, ⟨hl, hr⟩ | ⟨hl, n, law, hn, hr⟩⟩
  · simp [ht]
  · rw [hr]
    refine ⟨by simp, ?_⟩
    rintro _ ⟨⟩
    exact ⟨o, ho, hk, .inl ⟨hl, rfl⟩⟩
  · rw [hr]
    refine ⟨by simp, ?_⟩
    rintro _ ⟨⟩
    exact ⟨o, ho, hk, .inr ⟨hl, n, resultLength_eq_some_iff.mpr law, hn, rfl⟩⟩

end Sys2Proof.Machine
end

section
/-! The channel coder (41_hamming.md). Both commands map block by block, so each statement about a sequence is one about
a codeword or a received block, and adding a codeword to a block changes neither its syndrome nor its correction. -/
namespace Sys2Proof.Machine

variable {s : State}

/-! ### Blocks of a bit sequence -/

theorem bitAt_blockAt {w k i : Nat} (b : List Bit) (hi : i < w) : bitAt (blockAt w k b) i = bitAt b (w * k + i) := by
  simp [bitAt, blockAt, List.getD, List.getElem?_take_of_lt hi]

theorem blockAt_length {w k : Nat} {b : List Bit} (hk : k < b.length / w) : (blockAt w k b).length = w := by
  have hw : w * (k + 1) ≤ b.length := (Nat.mul_le_mul_left w hk).trans (Nat.mul_div_le b.length w)
  rw [Nat.mul_succ] at hw
  simp only [blockAt, List.length_take, List.length_drop]
  omega

theorem blockAt_zipWith_xor (w k : Nat) (a b : List Bit) :
    blockAt w k (List.zipWith xor a b) = List.zipWith xor (blockAt w k a) (blockAt w k b) := by
  simp [blockAt, List.drop_zipWith, List.take_zipWith]

/-- HAM_ENC block by block (R105). -/
theorem blockAt_hamEncode {b : List Bit} (h : b.length % 4 = 0) {k : Nat} (hk : k < b.length / 4) :
    blockAt 7 k (hamEncode b) = codeword (blockAt 4 k b) := by
  induction b, h using fourBlocks_induction generalizing k with
  | nil => simp at hk
  | block m0 m1 m2 m3 rest hr h ih =>
    cases k with
    | zero => exact blockAt_zero_append (codeword_length m0 m1 m2 m3)
    | succ k =>
      have hk' : k < rest.length / 4 := by simp only [List.length_cons] at hk; omega
      calc blockAt 7 (k + 1) (codeword [m0, m1, m2, m3] ++ hamEncode rest)
        _ = blockAt 7 k (hamEncode rest) := blockAt_succ_append (codeword_length m0 m1 m2 m3)
        _ = codeword (blockAt 4 k rest) := ih hk'
        _ = codeword (blockAt 4 (k + 1) ([m0, m1, m2, m3] ++ rest)) :=
          congrArg codeword (blockAt_succ_append (a := [m0, m1, m2, m3]) rfl).symm

/-- HAM_DEC block by block (R106). -/
theorem blockAt_hamDecode {b : List Bit} (h : b.length % 7 = 0) {k : Nat} (hk : k < b.length / 7) :
    blockAt 4 k (hamDecode b) = decodeBlock (blockAt 7 k b) := by
  induction b, h using sevenBlocks_induction generalizing k with
  | nil => simp at hk
  | block r0 r1 r2 r3 r4 r5 r6 rest hr h ih =>
    cases k with
    | zero => exact blockAt_zero_append (decodeBlock_length r0 r1 r2 r3 r4 r5 r6)
    | succ k =>
      have hk' : k < rest.length / 7 := by simp only [List.length_cons] at hk; omega
      calc blockAt 4 (k + 1) (decodeBlock [r0, r1, r2, r3, r4, r5, r6] ++ hamDecode rest)
        _ = blockAt 4 k (hamDecode rest) := blockAt_succ_append (decodeBlock_length r0 r1 r2 r3 r4 r5 r6)
        _ = decodeBlock (blockAt 7 k rest) := ih hk'
        _ = decodeBlock (blockAt 7 (k + 1) ([r0, r1, r2, r3, r4, r5, r6] ++ rest)) :=
          congrArg decodeBlock (blockAt_succ_append (a := [r0, r1, r2, r3, r4, r5, r6]) rfl).symm

theorem hamEncode_append {a : List Bit} (h : a.length % 4 = 0) (b : List Bit) :
    hamEncode (a ++ b) = hamEncode a ++ hamEncode b := by
  induction a, h using fourBlocks_induction with
  | nil => rfl
  | block m0 m1 m2 m3 rest hr h ih => simp only [List.cons_append, hamEncode_block, ih, List.append_assoc]

theorem hamDecode_append {a : List Bit} (h : a.length % 7 = 0) (b : List Bit) :
    hamDecode (a ++ b) = hamDecode a ++ hamDecode b := by
  induction a, h using sevenBlocks_induction with
  | nil => rfl
  | block r0 r1 r2 r3 r4 r5 r6 rest hr h ih => simp only [List.cons_append, hamDecode_block, ih, List.append_assoc]

/-- Settles O33: the lengths are `hamEncode_length` and `hamDecode_length`, and both maps distribute over
concatenation by induction on the blocks of the first sequence. -/
theorem hammingLengthsAndBlocks : Obligations.HammingLengthsAndBlocks := fun _ b =>
  ⟨fun h4 => ⟨hamEncode_length h4, hamEncode_append h4 b⟩, fun h7 => ⟨hamDecode_length h7, hamDecode_append h7 b⟩⟩

/-! ### One block of either length -/

theorem codeword_of_length : ∀ {m : List Bit}, m.length = 4 →
    codeword m = [bitAt m 0, bitAt m 1, bitAt m 2, bitAt m 3, bitAt m 0 ^^ bitAt m 1 ^^ bitAt m 3,
      bitAt m 0 ^^ bitAt m 2 ^^ bitAt m 3, bitAt m 1 ^^ bitAt m 2 ^^ bitAt m 3]
  | [m0, m1, m2, m3], _ => codeword_eq m0 m1 m2 m3

theorem syndrome_of_length : ∀ {r : List Bit}, r.length = 7 → syndrome r = syndromeOf (bitAt r)
  | [r0, r1, r2, r3, r4, r5, r6], _ => syndrome_eq r0 r1 r2 r3 r4 r5 r6

theorem decodeBlock_of_length : ∀ {r : List Bit}, r.length = 7 →
    decodeBlock r = (List.range 4).map fun i => bitAt r i ^^ decide (syndrome r = columnValue i)
  | [r0, r1, r2, r3, r4, r5, r6], _ => by rw [decodeBlock_eq, syndrome_eq]

/-! ### The result of the two commands -/

theorem exec_hamEnc_of_invalidLength {b : List Bit} (ho : s.operands = [.bits b]) (hl : s.tooLong b.length = false)
    (h4 : b.length % 4 ≠ 0) : exec .hamEnc s = raised s .invalidLength :=
  (withBits_of_bits ho hl).trans (if_neg h4)

theorem exec_hamDec_of_invalidLength {b : List Bit} (ho : s.operands = [.bits b]) (hl : s.tooLong b.length = false)
    (h7 : b.length % 7 ≠ 0) : exec .hamDec s = raised s .invalidLength :=
  (withBits_of_bits ho hl).trans (if_neg h7)

/-- HAM_DEC's result is never longer than its operand, so it is delivered wherever the operand is accepted (R7). -/
theorem exec_hamDec_eq_complete {b : List Bit} (ho : s.operands = [.bits b]) (hl : s.tooLong b.length = false)
    (h7 : b.length % 7 = 0) : exec .hamDec s = .next (s.complete (some (.bits (hamDecode b)))) := by
  have hle : (hamDecode b).length ≤ b.length := by rw [hamDecode_length h7]; omega
  rw [exec_hamDec_eq_deliver ho hl h7, deliverBits_of_fits (State.tooLong_mono hl hle)]

/-- Settles O29: block `k` of the result is the codeword of block `k` of the operand (`blockAt_hamEncode`). -/
theorem hamEncResult : Obligations.HamEncResult := by
  refine fun s b ho hl => ⟨fun h4 hfit => ?_, fun h4 =>
    ⟨_, exec_hamEnc_of_invalidLength ho hl h4, .of_raise s .invalidLength⟩⟩
  have hlen := hamEncode_length h4
  have hexec : exec .hamEnc s = .next (s.complete (some (.bits (hamEncode b)))) := by
    rw [exec_hamEnc_eq_deliver ho hl h4, deliverBits_of_fits (hlen ▸ hfit)]
  refine ⟨hamEncode b, _, hexec, rfl, .of_complete s _, hlen, fun k hk => ?_⟩
  rw [blockAt_hamEncode h4 hk, codeword_of_length (blockAt_length hk)]
  simp [bitAt_blockAt]

/-- Settles O30: block `k` of the result is the decoded block `k` of the operand (`blockAt_hamDecode`). -/
theorem hamDecResult : Obligations.HamDecResult := by
  refine fun s b ho hl => ⟨fun h7 => ?_, fun h7 =>
    ⟨_, exec_hamDec_of_invalidLength ho hl h7, .of_raise s .invalidLength⟩⟩
  refine ⟨hamDecode b, _, exec_hamDec_eq_complete ho hl h7, rfl, .of_complete s _, hamDecode_length h7, fun k hk => ?_⟩
  have hr : (blockAt 7 k b).length = 7 := blockAt_length hk
  rw [blockAt_hamDecode h7 hk, decodeBlock_of_length hr, syndrome_of_length hr]
  simp [List.range_succ, syndromeOf, bitAt_blockAt]

/-! ### Errors on a codeword (R102, R104, R107) -/

/-- A parity check of R103 on a codeword with errors: the message bits that it covers cancel against the parity bit. -/
theorem parityCheck_xor (x y z p q r t : Bit) :
    ((x ^^ p) ^^ (y ^^ q) ^^ (z ^^ r) ^^ ((x ^^ y ^^ z) ^^ t)) = (p ^^ q ^^ r ^^ t) := by
  revert x y z p q r t; decide

/-- The syndrome of a codeword with errors is the syndrome of the errors. -/
theorem syndrome_codeword_xor : ∀ {m e : List Bit}, m.length = 4 → e.length = 7 →
    syndrome (List.zipWith xor (codeword m) e) = syndrome e
  | [m0, m1, m2, m3], [e0, e1, e2, e3, e4, e5, e6], _, _ => by
    simp only [codeword_eq, List.zipWith_cons_cons, List.zipWith_nil_left, syndrome_eq, syndromeOf, bitAt_cons_zero,
      bitAt_cons_succ, parityCheck_xor]

/-- The decoder gives the message with the errors that it leaves in the first four bits. -/
theorem decodeBlock_codeword_xor {m e : List Bit} (hm : m.length = 4) (he : e.length = 7) :
    decodeBlock (List.zipWith xor (codeword m) e) = List.zipWith xor m (decodeBlock e) := by
  have hc : (List.zipWith xor (codeword m) e).length = 7 := by simp [codeword_of_length hm, he]
  rw [decodeBlock_of_length hc, decodeBlock_of_length he, syndrome_codeword_xor hm he]
  match m, e, hm, he with
  | [m0, m1, m2, m3], [e0, e1, e2, e3, e4, e5, e6], _, _ => simp [codeword_eq, List.range_succ]

/-- R107: the decoder leaves no error in the message exactly where at most one bit is wrong. -/
theorem decodeBlock_eq_zero_iff : ∀ {e : List Bit}, e.length = 7 →
    (decodeBlock e = [false, false, false, false] ↔ e.count true ≤ 1)
  | [e0, e1, e2, e3, e4, e5, e6], _ => by revert e0 e1 e2 e3 e4 e5 e6; decide

theorem xor_eq_left_iff (x y : Bit) : (x ^^ y) = x ↔ y = false := by cases x <;> cases y <;> decide

theorem decodeBlock_codeword_xor_eq_iff {m e : List Bit} (hm : m.length = 4) (he : e.length = 7) :
    decodeBlock (List.zipWith xor (codeword m) e) = m ↔ e.count true ≤ 1 := by
  rw [decodeBlock_codeword_xor hm he, ← decodeBlock_eq_zero_iff he, decodeBlock_of_length he]
  match m, hm with
  | [m0, m1, m2, m3], _ => simp [List.range_succ, xor_eq_left_iff]

/-- Settles O31: block by block, the decoder leaves no error exactly where at most one bit is wrong. -/
theorem hamDecCorrectsExactlySingleErrors : Obligations.HamDecCorrectsExactlySingleErrors := by
  intro s b e h4 he ho hl
  have hlen : (List.zipWith xor (hamEncode b) e).length = 7 * (b.length / 4) := by
    rw [List.length_zipWith, hamEncode_length h4, he]; omega
  have h7 : (List.zipWith xor (hamEncode b) e).length % 7 = 0 := by omega
  refine ⟨_, _, exec_hamDec_eq_complete ho (hlen ▸ hl) h7, rfl, rfl, ?_, fun k hk => ?_⟩
  · rw [hamDecode_length h7, hlen]; omega
  · have hkr : k < (List.zipWith xor (hamEncode b) e).length / 7 := by omega
    have hke : k < e.length / 7 := by omega
    rw [blockAt_hamDecode h7 hkr, blockAt_zipWith_xor, blockAt_hamEncode h4 hk]
    exact decodeBlock_codeword_xor_eq_iff (blockAt_length hk) (blockAt_length hke)

/-- The error pattern on seven bits that has position `p` alone wrong. -/
def singleError (p : Nat) : List Bit := (List.range 7).map fun i => decide (p = i)

theorem singleError_length (p : Nat) : (singleError p).length = 7 := by simp [singleError]

theorem modify_not_eq_xor_singleError {c : List Bit} (hc : c.length = 7) (p : Nat) :
    c.modify p (!·) = List.zipWith xor c (singleError p) := by
  apply List.ext_getElem
  · simp [hc, singleError_length]
  · intro n h _
    by_cases hn : p = n <;> simp [singleError, hn]

/-- R102: the syndrome of a single error is the column of H at its position. -/
theorem syndrome_singleError : ∀ p < 7, syndrome (singleError p) = columnValue p := by decide

/-- R104: `pos` takes the value of a column to its position. -/
theorem errorPos_columnValue : ∀ p < 7, errorPos (columnValue p) = some (p + 1) := by decide

/-- Settles O32: the syndrome of a codeword with errors is that of the errors (`syndrome_codeword_xor`). -/
theorem syndromeLocatesSingleError : Obligations.SyndromeLocatesSingleError := by
  intro m0 m1 m2 m3
  have hc := codeword_length m0 m1 m2 m3
  refine ⟨?_, fun p hp => ⟨?_, errorPos_columnValue p hp⟩⟩
  · calc syndrome (codeword [m0, m1, m2, m3])
      _ = syndrome (List.zipWith xor (codeword [m0, m1, m2, m3]) (List.replicate 7 false)) := by simp [codeword_eq]
      _ = syndrome (List.replicate 7 false) := syndrome_codeword_xor rfl rfl
      _ = 0 := rfl
  · rw [modify_not_eq_xor_singleError hc, syndrome_codeword_xor rfl (singleError_length p), syndrome_singleError p hp]

end Sys2Proof.Machine
end

section
/-! The length of what a command hands to the host (R109, R139, R173, R174, R222): a well-formed data command whose
operand is accepted either meets its length law and delivers, or raises and delivers nothing. -/
namespace Sys2Proof.Machine

variable {s t : State}

/-! ### A data command that its length law gives no result raises (R221) -/

theorem exec_qpskMod_of_invalidLength {b : List Bit} {c : Cfg} (ho : s.operands = [.bits b])
    (hl : s.tooLong b.length = false) (hc : s.cfg = some c) (h2 : b.length % 2 ≠ 0) :
    exec .qpskMod s = raised s .invalidLength :=
  ((withBits_of_bits ho hl).trans (withCfg_of_some hc)).trans (if_neg h2)

/-- Step 3 of the command cycle (R82), for a command that is past step 2. -/
theorem exec_of_unconfigured : ∀ {i : Instr} {o : Operand}, readsCfg i = true → s.cfg = none → s.operands = [o] →
    o.kind = i.operandKind → s.tooLong o.length = false → exec i s = raised s .notConfigured
  | .bpskMod, .bits _, _, hc, ho, _, hl => (withBits_of_bits ho hl).trans (withCfg_of_none hc)
  | .qpskMod, .bits _, _, hc, ho, _, hl => (withBits_of_bits ho hl).trans (withCfg_of_none hc)
  | .bpskDem, .reals _, _, hc, ho, _, hl => (withReals_of_reals ho hl).trans (withCfg_of_none hc)
  | .qpskDem, .reals _, _, hc, ho, _, hl => (withReals_of_reals ho hl).trans (withCfg_of_none hc)
  | .awgnR, .reals _, _, hc, ho, _, hl => (withReals_of_reals ho hl).trans (withCfg_of_none hc)
  | .awgnC, .cplx _, _, hc, ho, _, hl => (withCplx_of_cplx ho hl).trans (withCfg_of_none hc)

theorem lengthLaw_or_raised_of_configured : ∀ {i : Instr} {o : Operand}, i ≠ .configure →
    (readsCfg i = true → ∃ c, s.cfg = some c) → s.operands = [o] → o.kind = i.operandKind →
    s.tooLong o.length = false → (∃ n, LengthLaw s.cfg i o n) ∨ exec i s = raised s .invalidLength
  | .hamEnc, .bits b, _, _, ho, _, hl =>
    if h4 : b.length % 4 = 0 then .inl ⟨_, .hamEnc h4⟩ else .inr (exec_hamEnc_of_invalidLength ho hl h4)
  | .hamDec, .bits b, _, _, ho, _, hl =>
    if h7 : b.length % 7 = 0 then .inl ⟨_, .hamDec h7⟩ else .inr (exec_hamDec_of_invalidLength ho hl h7)
  | .bpskMod, .bits _, _, hc, _, _, _ => .inl ((hc rfl).elim fun _ hc => ⟨_, .bpskMod hc⟩)
  | .qpskMod, .bits b, _, hc, ho, _, hl => (hc rfl).elim fun _ hc =>
    if h2 : b.length % 2 = 0 then .inl ⟨_, .qpskMod hc h2⟩ else .inr (exec_qpskMod_of_invalidLength ho hl hc h2)
  | .bpskDem, .reals _, _, hc, _, _, _ => .inl ((hc rfl).elim fun _ hc => ⟨_, .bpskDem hc⟩)
  | .qpskDem, .reals _, _, hc, _, _, _ => .inl ((hc rfl).elim fun _ hc => ⟨_, .qpskDem hc⟩)
  | .awgnR, .reals _, _, hc, _, _, _ => .inl ((hc rfl).elim fun _ hc => ⟨_, .awgnR hc⟩)
  | .awgnC, .cplx _, _, hc, _, _, _ => .inl ((hc rfl).elim fun _ hc => ⟨_, .awgnC hc⟩)

/-- A data command past step 2 has a length law, or it raises NotConfigured or InvalidLength (R223). -/
theorem exists_lengthLaw_or_raised {i : Instr} {o : Operand} (hi : i ≠ .configure) (ho : s.operands = [o])
    (hk : o.kind = i.operandKind) (hl : s.tooLong o.length = false) :
    (∃ n, LengthLaw s.cfg i o n) ∨ ∃ e, exec i s = raised s e := by
  by_cases hu : readsCfg i = true ∧ s.cfg = none
  · obtain ⟨hr, hc⟩ := hu
    exact .inr ⟨_, exec_of_unconfigured hr hc ho hk hl⟩
  · have hc : readsCfg i = true → ∃ c, s.cfg = some c := fun hr => Option.ne_none_iff_exists'.mp fun hn => hu ⟨hr, hn⟩
    exact (lengthLaw_or_raised_of_configured hi hc ho hk hl).imp_right fun h => ⟨_, h⟩

theorem reply_of_raised {e : ErrCode} (h : raised s e = .next t) : t.reply = none := by
  cases h
  rfl

/-! ### A data command that meets its length law delivers a result of that length -/

theorem deliverBits_reply_length {b : List Bit} (h : deliverBits s b = .next t) :
    t.reply.map Reply.length = some b.length := by
  obtain ⟨-, rfl⟩ := deliverBits_next h
  rfl

theorem deliverReals_reply_length {x : List XReal} (h : deliverReals s x = .next t) :
    t.reply.map Reply.length = some x.length := by
  obtain ⟨-, rfl⟩ := deliverReals_next h
  simp [Reply.length]

theorem deliverCplx_reply_length {z : List Cplx} (h : deliverCplx s z = .next t) :
    t.reply.map Reply.length = some z.length := by
  obtain ⟨-, rfl⟩ := deliverCplx_next h
  simp [Reply.length]

theorem exec_reply_length_of_lengthLaw {i : Instr} {o : Operand} {n : Nat} (ho : s.operands = [o])
    (hl : s.tooLong o.length = false) (law : LengthLaw s.cfg i o n) (h : exec i s = .next t) :
    t.reply.map Reply.length = some n := by
  cases law with
  | hamEnc h4 =>
    rw [exec_hamEnc_eq_deliver ho hl h4] at h
    rw [deliverBits_reply_length h, hamEncode_length h4]
  | hamDec h7 =>
    rw [exec_hamDec_eq_deliver ho hl h7] at h
    rw [deliverBits_reply_length h, hamDecode_length h7]
  | bpskMod hc =>
    rw [exec_bpskMod_eq_deliver ho hl hc] at h
    rw [deliverReals_reply_length h, bpskModulate_length]
  | qpskMod hc h2 =>
    rw [exec_qpskMod_eq_deliver ho hl hc h2] at h
    rw [deliverReals_reply_length h, qpskModulate_length]
  | bpskDem hc =>
    rw [exec_bpskDem_eq_deliver ho hl hc] at h
    rw [deliverBits_reply_length h, bpskDemodulate_length]
  | qpskDem hc =>
    rw [exec_qpskDem_eq_deliver ho hl hc] at h
    rw [deliverBits_reply_length h, qpskDemodulate_length]
  | awgnR hc =>
    rw [exec_awgnR_eq_deliver ho hl hc] at h
    simp [deliverReals_reply_length h]
  | awgnC hc =>
    rw [exec_awgnC_eq_deliver ho hl hc] at h
    simp [deliverCplx_reply_length h]

/-! ### The length laws on any frame -/

theorem LengthLaw.kind_eq {cfg : Option Cfg} {i : Instr} {o : Operand} {n : Nat} (law : LengthLaw cfg i o n) :
    o.kind = i.operandKind := by
  cases law <;> rfl

theorem resultLength_of_malformed {i : Instr} {os : List Operand} (cfg : Option Cfg)
    (h : i.operandsFit os = false) : resultLength i cfg os = none := by
  match os with
  | [] => cases i <;> simp [resultLength]
  | [o] =>
    refine Option.eq_none_iff_forall_ne_some.mpr fun n hn => ?_
    have hk := (resultLength_eq_some_iff.mp hn).kind_eq
    simp [Instr.operandsFit, hk] at h
  | _ :: _ :: _ => cases i <;> simp [resultLength]

/-- R80, step 2: a data command that goes to a next state has accepted its operand. -/
theorem operand_fits_of_exec_next {i : Instr} {o : Operand} (hi : i ≠ .configure) (ho : s.operands = [o])
    (hk : o.kind = i.operandKind) (h : exec i s = .next t) : s.tooLong o.length = false := by
  by_contra hl
  rw [exec_of_operandTooLong hi ho hk (by simpa using hl)] at h
  cases h

/-- Settles O55: a command whose length law gives a length delivers a result of that length, and any other is
CONFIGURE, has a malformed frame or raises. -/
theorem resultLengthFollowsLengthLaw : Obligations.ResultLengthFollowsLengthLaw := by
  intro s t i h
  by_cases hi : i = .configure
  · subst hi
    rw [(exec_effect h).reply_of_configure]
    rfl
  cases hfit : i.operandsFit s.operands with
  | false =>
    rw [resultLength_of_malformed s.cfg hfit, reply_of_raised (exec_of_malformed hfit ▸ h)]
    rfl
  | true =>
    obtain ⟨o, ho, hk⟩ := operandsFit_iff.mp hfit
    have hl := operand_fits_of_exec_next hi ho hk h
    rw [ho]
    cases hn : resultLength i s.cfg [o] with
    | some n => exact exec_reply_length_of_lengthLaw ho hl (resultLength_eq_some_iff.mp hn) h
    | none =>
      rcases exists_lengthLaw_or_raised hi ho hk hl with ⟨n, law⟩ | ⟨e, he⟩
      · simp [resultLength_eq_some_iff.mpr law] at hn
      · rw [reply_of_raised (he ▸ h)]
        rfl

end Sys2Proof.Machine
end

section
/-! The modem (42_modem.md): the value of every sample that the modulators deliver and of every bit that the
demodulators decide, the noiseless round trip and the silent carrier. -/
namespace Sys2Proof.Machine

variable {s t : State} {c : Cfg}

/-! ### The samples of a modulated buffer -/

/-- R133, on the shared time axis of R131. -/
theorem valAt_bpskModulate {b : List Bit} {j k : Nat} (hj : j < b.length) (hk : k < c.ns) :
    valAt (bpskModulate c b) (j * c.ns + k) = (if bitAt b j then 1 else -1) * carrierSin c (j * c.ns + k) := by
  have hbit : bitAt b j = b[j] := by simp [bitAt, hj]
  rw [bpskModulate, valAt_of_getElem? (modulateFrom_getElem? c _ 0 j k b hj hk), bpskSample_val, Nat.zero_add, hbit]

/-- R136, on the shared time axis of R131. -/
theorem valAt_qpskModulate {b : List Bit} {j k : Nat} (hj : j < b.length / 2) (hk : k < c.ns) :
    valAt (qpskModulate c b) (j * c.ns + k) =
      carrierSin c (j * c.ns + k) * Real.cos (dibitPhase (bitAt b (2 * j)) (bitAt b (2 * j + 1))) +
      carrierCos c (j * c.ns + k) * Real.sin (dibitPhase (bitAt b (2 * j)) (bitAt b (2 * j + 1))) := by
  have hd : j < (dibits b).length := by simpa using hj
  rw [qpskModulate, valAt_of_getElem? (modulateFrom_getElem? c _ 0 j k (dibits b) hd hk), qpskSample_val,
    Nat.zero_add, dibits_getElem]

/-- R142: the sum of R136 is the carrier advanced by the phase. -/
theorem carrier_mul_cos_add_mul_sin (c : Cfg) (n : Nat) (θ : ℝ) :
    carrierSin c n * Real.cos θ + carrierCos c n * Real.sin θ =
      Real.sin (2 * Real.pi * c.fc.val * (n / c.fs.val) + θ) :=
  (Real.sin_add _ θ).symm

/-- What holds of 0 and of every sample of every symbol holds at every index of a modulated buffer. -/
theorem valAt_modulateFrom_of_forall {σ : Type} {sample : σ → Nat → XReal} {P : ℝ → Prop} (h0 : P 0)
    (h : ∀ a n, P (sample a n).val) (l : List σ) (n : Nat) : P (valAt (modulateFrom c sample 0 l) n) := by
  cases hv : (modulateFrom c sample 0 l)[n]? with
  | none => simpa [valAt, List.getD, hv] using h0
  | some v =>
    obtain ⟨a, -, m, rfl⟩ := mem_modulateFrom (List.mem_of_getElem? hv)
    rw [valAt_of_getElem? hv]
    exact h a m

theorem abs_carrierSin_le_one (c : Cfg) (n : Nat) : |carrierSin c n| ≤ 1 := Real.abs_sin_le_one _

/-- R141 for BPSK_MOD. -/
theorem abs_bpskSample_le_one (b : Bit) (n : Nat) : |(bpskSample c b n).val| ≤ 1 := by
  rw [bpskSample_val]
  cases b <;> simpa using abs_carrierSin_le_one c n

/-- R141 for QPSK_MOD. -/
theorem abs_qpskSample_le_one (d : Bit × Bit) (n : Nat) : |(qpskSample c d n).val| ≤ 1 := by
  rw [qpskSample_val, carrier_mul_cos_add_mul_sin]
  exact Real.abs_sin_le_one _

/-! ### The bits of a demodulated buffer -/

/-- R134. -/
theorem bitAt_bpskDemodulate {x : List XReal} {j : Nat} (hj : j < x.length / c.ns) :
    bitAt (bpskDemodulate c x) j = true ↔ 0 < windowCorr c x j carrierSin := by
  have hbit : bitAt (bpskDemodulate c x) j = (corr c x j refI).isPos := by
    simp [bitAt, bpskDemodulate, hj]
  rw [hbit, XReal.isPos_iff, corr_val (refI_val c)]

theorem bitAt_flatMap_pair {α : Type} (f g : α → Bit) : ∀ {l : List α} {j : Nat} (hj : j < l.length),
    bitAt (l.flatMap fun a => [f a, g a]) (2 * j) = f l[j] ∧
      bitAt (l.flatMap fun a => [f a, g a]) (2 * j + 1) = g l[j]
  | _ :: _, 0, _ => ⟨rfl, rfl⟩
  | _ :: _, _ + 1, hj => bitAt_flatMap_pair f g (Nat.lt_of_succ_lt_succ hj)

/-- R137: the first bit of a dibit comes from the quadrature correlation, the second from the in-phase one. -/
theorem bitAt_qpskDemodulate {x : List XReal} {j : Nat} (hj : j < x.length / c.ns) :
    (bitAt (qpskDemodulate c x) (2 * j) = true ↔ windowCorr c x j carrierCos < 0) ∧
      (bitAt (qpskDemodulate c x) (2 * j + 1) = true ↔ windowCorr c x j carrierSin < 0) := by
  obtain ⟨hb1, hb2⟩ := bitAt_flatMap_pair (fun j => (corr c x j refQ).isNeg) (fun j => (corr c x j refI).isNeg)
    (l := List.range (x.length / c.ns)) (by simpa using hj)
  rw [List.getElem_range] at hb1 hb2
  rw [← corr_val (refQ_val c), ← corr_val (refI_val c), ← XReal.isNeg_iff, ← XReal.isNeg_iff, ← hb1, ← hb2]
  exact ⟨.rfl, .rfl⟩

theorem lt_length_of_bitAt {b : List Bit} {n : Nat} (h : bitAt b n = true) : n < b.length := by
  by_contra hn
  simp [bitAt, List.getD, List.getElem?_eq_none (not_lt.mp hn)] at h

/-! ### The four commands on a configured block -/

theorem exec_bpskMod_eq_complete {b : List Bit} (ho : s.operands = [.bits b]) (hc : s.cfg = some c)
    (hl : s.tooLong b.length = false) (hfit : s.tooLong (b.length * c.ns) = false) :
    exec .bpskMod s = .next (s.complete (some (.reals ((bpskModulate c b).map XReal.norm)))) := by
  rw [exec_bpskMod_eq_deliver ho hl hc, deliverReals_of_fits (by rwa [bpskModulate_length])]

theorem exec_qpskMod_eq_complete {b : List Bit} (ho : s.operands = [.bits b]) (hc : s.cfg = some c)
    (hl : s.tooLong b.length = false) (h2 : b.length % 2 = 0) (hfit : s.tooLong (b.length / 2 * c.ns) = false) :
    exec .qpskMod s = .next (s.complete (some (.reals ((qpskModulate c b).map XReal.norm)))) := by
  rw [exec_qpskMod_eq_deliver ho hl hc h2, deliverReals_of_fits (by rwa [qpskModulate_length])]

/-- BPSK_DEM's result is never longer than its operand, so it is delivered wherever the operand is accepted (R7). -/
theorem exec_bpskDem_eq_complete {x : List XReal} (ho : s.operands = [.reals x]) (hc : s.cfg = some c)
    (hl : s.tooLong x.length = false) :
    exec .bpskDem s = .next (s.complete (some (.bits (bpskDemodulate c x)))) := by
  have hle : (bpskDemodulate c x).length ≤ x.length := by
    rw [bpskDemodulate_length]
    exact Nat.div_le_self _ _
  rw [exec_bpskDem_eq_deliver ho hl hc, deliverBits_of_fits (State.tooLong_mono hl hle)]

theorem exec_qpskDem_eq_complete {x : List XReal} (ho : s.operands = [.reals x]) (hc : s.cfg = some c)
    (hl : s.tooLong x.length = false) (hfit : s.tooLong (2 * (x.length / c.ns)) = false) :
    exec .qpskDem s = .next (s.complete (some (.bits (qpskDemodulate c x)))) := by
  rw [exec_qpskDem_eq_deliver ho hl hc, deliverBits_of_fits (by rwa [qpskDemodulate_length])]

/-- Settles O34, by `valAt_bpskModulate`: delivery changes no value. -/
theorem bpskModResult : Obligations.BpskModResult := by
  intro s b c ho hc hl hfit
  refine ⟨_, _, exec_bpskMod_eq_complete ho hc hl hfit, rfl, .of_complete s _, by simp, fun j hj k hk => ?_⟩
  rw [valAt_map_norm, valAt_bpskModulate hj hk]

/-- Settles O35, by `valAt_qpskModulate` on an even length and by the length check on an odd one. -/
theorem qpskModResult : Obligations.QpskModResult := by
  refine fun s b c ho hc hl => ⟨fun h2 hfit => ?_, fun h2 =>
    ⟨_, exec_qpskMod_of_invalidLength ho hl hc h2, .of_raise s .invalidLength⟩⟩
  refine ⟨_, _, exec_qpskMod_eq_complete ho hc hl h2 hfit, rfl, .of_complete s _, by simp, fun j hj k hk => ?_⟩
  rw [valAt_map_norm, valAt_qpskModulate hj hk]

/-- Settles O36, by `bitAt_bpskDemodulate`. -/
theorem bpskDemResult : Obligations.BpskDemResult := fun s x c ho hc hl =>
  ⟨_, _, exec_bpskDem_eq_complete ho hc hl, rfl, .of_complete s _, bpskDemodulate_length c x,
    fun _ => bitAt_bpskDemodulate⟩

/-- Settles O37, by `bitAt_qpskDemodulate`. -/
theorem qpskDemResult : Obligations.QpskDemResult := fun s x c ho hc hl hfit =>
  ⟨_, _, exec_qpskDem_eq_complete ho hc hl hfit, rfl, .of_complete s _, qpskDemodulate_length c x,
    fun _ => bitAt_qpskDemodulate⟩

/-- Settles O38: the sample of R136 is the sine of the sum (`carrier_mul_cos_add_mul_sin`). -/
theorem qpskSampleIsShiftedCarrier : Obligations.QpskSampleIsShiftedCarrier := by
  intro s b c ho hc hl h2 hfit
  refine ⟨_, _, exec_qpskMod_eq_complete ho hc hl h2 hfit, rfl, fun j hj k hk => ?_⟩
  rw [valAt_map_norm, valAt_qpskModulate hj hk, carrier_mul_cos_add_mul_sin]

/-! ### The amplitude (R141) -/

/-- A data command that hands a result to the host has met its length law. -/
theorem exists_lengthLaw_of_reply {i : Instr} {r : Reply} (hi : i ≠ .configure) (h : exec i s = .next t)
    (hr : t.reply = some r) :
    ∃ o n, s.operands = [o] ∧ s.tooLong o.length = false ∧ LengthLaw s.cfg i o n := by
  have not_raised : ∀ e, exec i s ≠ raised s e := fun e he => by simp [reply_of_raised (he ▸ h)] at hr
  cases hfit : i.operandsFit s.operands with
  | false => exact absurd (exec_of_malformed hfit) (not_raised _)
  | true =>
    obtain ⟨o, ho, hk⟩ := operandsFit_iff.mp hfit
    have hl := operand_fits_of_exec_next hi ho hk h
    rcases exists_lengthLaw_or_raised hi ho hk hl with ⟨n, law⟩ | ⟨e, he⟩
    · exact ⟨o, n, ho, hl, law⟩
    · exact absurd he (not_raised e)

theorem abs_valAt_of_deliverReals_le_one {σ : Type} {sample : σ → Nat → XReal} {l : List σ} {out : List XReal}
    (hsample : ∀ a n, |(sample a n).val| ≤ 1) (h : deliverReals s (modulateFrom c sample 0 l) = .next t)
    (hr : t.reply = some (.reals out)) (n : Nat) : |valAt out n| ≤ 1 := by
  obtain ⟨-, rfl⟩ := deliverReals_next h
  obtain rfl : (modulateFrom c sample 0 l).map XReal.norm = out := by simpa using hr
  rw [valAt_map_norm]
  exact valAt_modulateFrom_of_forall (P := (|·| ≤ 1)) (by simp) hsample l n

/-- Settles O39: a modulator that delivers has met its length law, and what it delivers is bounded sample by sample
(`abs_bpskSample_le_one`, `abs_qpskSample_le_one`). -/
theorem modulatedAmplitudeIsAtMostOne : Obligations.ModulatedAmplitudeIsAtMostOne := by
  intro s t i out hi h hr
  have hne : i ≠ .configure := by rcases hi with rfl | rfl <;> decide
  obtain ⟨o, _, ho, hl, law⟩ := exists_lengthLaw_of_reply hne h hr
  rcases hi with rfl | rfl
  · cases law with
    | bpskMod hc =>
      exact abs_valAt_of_deliverReals_le_one abs_bpskSample_le_one (exec_bpskMod_eq_deliver ho hl hc ▸ h) hr
  · cases law with
    | qpskMod hc h2 =>
      exact abs_valAt_of_deliverReals_le_one abs_qpskSample_le_one (exec_qpskMod_eq_deliver ho hl hc h2 ▸ h) hr

/-! ### The noiseless round trip (R140) -/

/-- Where a window holds whole carrier cycles, the shared time axis and the references agree in every window. -/
theorem carriers_of_window (hlegal : c.Legal) (hcfg : RoundTripCfg c) (j k : Nat) :
    carrierSin c (j * c.ns + k) = carrierSin c k ∧ carrierCos c (j * c.ns + k) = carrierCos c k := by
  obtain ⟨m, hm, -⟩ := hcfg
  have hcarrier := carriers_of_whole_cycles hlegal.fs.ne' (Nat.pos_iff_ne_zero.mp hlegal.ns) hm
  have href := hcarrier 0 k
  rw [Nat.zero_mul, Nat.zero_add] at href
  exact ⟨(hcarrier j k).1.trans href.1.symm, (hcarrier j k).2.trans href.2.symm⟩

/-- The sums of G2 over one window of the references. -/
theorem sum_reference_products (hlegal : c.Legal) (hcfg : RoundTripCfg c) :
    ∑ k ∈ Finset.range c.ns, carrierSin c k ^ 2 = c.ns / 2 ∧
      ∑ k ∈ Finset.range c.ns, carrierCos c k ^ 2 = c.ns / 2 ∧
      ∑ k ∈ Finset.range c.ns, carrierSin c k * carrierCos c k = 0 := by
  obtain ⟨m, hm, hdvd⟩ := hcfg
  have href := carriers_of_whole_cycles hlegal.fs.ne' (Nat.pos_iff_ne_zero.mp hlegal.ns) hm 0
  simp only [Nat.zero_mul, Nat.zero_add] at href
  simp only [href]
  exact sum_carrier_products c.ns m hlegal.ns hdvd

/-- The correlations of a window that holds a combination of the two carriers: each reference gives back its own
coefficient times `NS/2`. -/
theorem windowCorr_of_whole_cycles (hlegal : c.Legal) (hcfg : RoundTripCfg c) {x : List XReal} {j : Nat} {p q : ℝ}
    (hx : ∀ k < c.ns, valAt x (j * c.ns + k) = carrierSin c (j * c.ns + k) * p + carrierCos c (j * c.ns + k) * q) :
    windowCorr c x j carrierSin = c.ns / 2 * p ∧ windowCorr c x j carrierCos = c.ns / 2 * q := by
  have hwindow : ∀ k ∈ Finset.range c.ns, valAt x (j * c.ns + k) = carrierSin c k * p + carrierCos c k * q := by
    intro k hk
    obtain ⟨hsin, hcos⟩ := carriers_of_window hlegal hcfg j k
    rw [hx k (Finset.mem_range.mp hk), hsin, hcos]
  obtain ⟨hss, hcc, hsc⟩ := sum_reference_products hlegal hcfg
  constructor
  · calc windowCorr c x j carrierSin
      _ = ∑ k ∈ Finset.range c.ns, (carrierSin c k ^ 2 * p + carrierSin c k * carrierCos c k * q) :=
        Finset.sum_congr rfl fun k hk => by rw [hwindow k hk]; ring
      _ = c.ns / 2 * p := by rw [Finset.sum_add_distrib, ← Finset.sum_mul, ← Finset.sum_mul, hss, hsc]; ring
  · calc windowCorr c x j carrierCos
      _ = ∑ k ∈ Finset.range c.ns, (carrierSin c k * carrierCos c k * p + carrierCos c k ^ 2 * q) :=
        Finset.sum_congr rfl fun k hk => by rw [hwindow k hk]; ring
      _ = c.ns / 2 * q := by rw [Finset.sum_add_distrib, ← Finset.sum_mul, ← Finset.sum_mul, hcc, hsc]; ring

theorem windowCorr_bpskModulate (hlegal : c.Legal) (hcfg : RoundTripCfg c) {b : List Bit} {j : Nat}
    (hj : j < b.length) :
    windowCorr c (bpskModulate c b) j carrierSin = (if bitAt b j then 1 else -1) * (c.ns / 2) := by
  have hwindow : ∀ k < c.ns, valAt (bpskModulate c b) (j * c.ns + k) =
      carrierSin c (j * c.ns + k) * (if bitAt b j then 1 else -1) + carrierCos c (j * c.ns + k) * 0 := fun k hk => by
    rw [valAt_bpskModulate hj hk]
    ring
  rw [(windowCorr_of_whole_cycles hlegal hcfg hwindow).1, mul_comm]

theorem windowCorr_qpskModulate (hlegal : c.Legal) (hcfg : RoundTripCfg c) {b : List Bit} {j : Nat}
    (hj : j < b.length / 2) :
    windowCorr c (qpskModulate c b) j carrierSin =
        c.ns / 2 * Real.cos (dibitPhase (bitAt b (2 * j)) (bitAt b (2 * j + 1))) ∧
      windowCorr c (qpskModulate c b) j carrierCos =
        c.ns / 2 * Real.sin (dibitPhase (bitAt b (2 * j)) (bitAt b (2 * j + 1))) :=
  windowCorr_of_whole_cycles hlegal hcfg fun _ => valAt_qpskModulate hj

theorem Cfg.Legal.half_ns_pos (hlegal : c.Legal) : (0 : ℝ) < c.ns / 2 := by
  have hns : 0 < c.ns := hlegal.ns
  positivity

theorem Cfg.Legal.half_ns_mul_neg_iff (hlegal : c.Legal) (r : ℝ) : c.ns / 2 * r < 0 ↔ r < 0 :=
  smul_neg_iff_of_pos_left hlegal.half_ns_pos

theorem bpskDemodulate_bpskModulate (hlegal : c.Legal) (hcfg : RoundTripCfg c) (b : List Bit) :
    bpskDemodulate c ((bpskModulate c b).map XReal.norm) = b := by
  have hwindows : ((bpskModulate c b).map XReal.norm).length / c.ns = b.length := by
    rw [List.length_map, bpskModulate_length, Nat.mul_div_cancel _ hlegal.ns]
  have hlen : (bpskDemodulate c ((bpskModulate c b).map XReal.norm)).length = b.length :=
    (bpskDemodulate_length _ _).trans hwindows
  refine eq_of_bitAt hlen fun j hj => ?_
  rw [hlen] at hj
  rw [Bool.eq_iff_iff, bitAt_bpskDemodulate (hwindows ▸ hj), windowCorr_map_norm,
    windowCorr_bpskModulate hlegal hcfg hj, mul_pos_iff_of_pos_right hlegal.half_ns_pos]
  cases bitAt b j <;> simp

theorem eq_of_bitAt_pairs {a b : List Bit} (hl : a.length = b.length) (h2 : b.length % 2 = 0)
    (h : ∀ j < b.length / 2, bitAt a (2 * j) = bitAt b (2 * j) ∧ bitAt a (2 * j + 1) = bitAt b (2 * j + 1)) :
    a = b := by
  refine eq_of_bitAt hl fun n hn => ?_
  have hpair := h (n / 2) (by omega)
  rcases Nat.mod_two_eq_zero_or_one n with hn2 | hn2
  · have heven : 2 * (n / 2) = n := by omega
    simpa only [heven] using hpair.1
  · have hodd : 2 * (n / 2) + 1 = n := by omega
    simpa only [hodd] using hpair.2

theorem qpskDemodulate_qpskModulate (hlegal : c.Legal) (hcfg : RoundTripCfg c) {b : List Bit}
    (h2 : b.length % 2 = 0) : qpskDemodulate c ((qpskModulate c b).map XReal.norm) = b := by
  have hwindows : ((qpskModulate c b).map XReal.norm).length / c.ns = b.length / 2 := by
    rw [List.length_map, qpskModulate_length, Nat.mul_div_cancel _ hlegal.ns]
  have hlen : (qpskDemodulate c ((qpskModulate c b).map XReal.norm)).length = b.length := by
    rw [qpskDemodulate_length, hwindows]
    omega
  refine eq_of_bitAt_pairs hlen h2 fun j hj => ?_
  obtain ⟨hb1, hb2⟩ := bitAt_qpskDemodulate (c := c) (x := (qpskModulate c b).map XReal.norm) (hwindows ▸ hj)
  obtain ⟨hI, hQ⟩ := windowCorr_qpskModulate hlegal hcfg hj
  obtain ⟨hsin, hcos⟩ := dibitPhase_signs (bitAt b (2 * j)) (bitAt b (2 * j + 1))
  rw [windowCorr_map_norm, hQ, hlegal.half_ns_mul_neg_iff, hsin] at hb1
  rw [windowCorr_map_norm, hI, hlegal.half_ns_mul_neg_iff, hcos] at hb2
  exact ⟨Bool.eq_iff_iff.mpr hb1, Bool.eq_iff_iff.mpr hb2⟩

/-- Settles O40: the correlations are `windowCorr_bpskModulate`, and their signs are the bits. -/
theorem bpskNoiselessRoundTrip : Obligations.BpskNoiselessRoundTrip := by
  intro s b c ho hc hlegal hcfg hmax
  have hfit := State.tooLong_eq_false_of_none hmax
  refine ⟨_, _, _, exec_bpskMod_eq_complete ho hc (hfit _) (hfit _), rfl, fun j hj => ?_,
    exec_bpskDem_eq_complete rfl hc (hfit _), ?_⟩
  · rw [windowCorr_map_norm, windowCorr_bpskModulate hlegal hcfg hj]
  · rw [State.complete_reply, bpskDemodulate_bpskModulate hlegal hcfg]

/-- Settles O41: the correlations are `windowCorr_qpskModulate`, and by the signs of the phase table their signs are
the dibit. -/
theorem qpskNoiselessRoundTrip : Obligations.QpskNoiselessRoundTrip := by
  intro s b c ho h2 hc hlegal hcfg hmax
  have hfit := State.tooLong_eq_false_of_none hmax
  refine ⟨_, _, _, exec_qpskMod_eq_complete ho hc (hfit _) h2 (hfit _), rfl, fun j hj => ?_,
    exec_qpskDem_eq_complete rfl hc (hfit _) (hfit _), ?_⟩
  · rw [windowCorr_map_norm, windowCorr_map_norm]
    exact windowCorr_qpskModulate hlegal hcfg hj
  · rw [State.complete_reply, qpskDemodulate_qpskModulate hlegal hcfg h2]

/-! ### The silent carrier (R138) -/

/-- Where `2*FC/FS` is an integer, the argument of every carrier sample is a multiple of π. -/
theorem carrierSin_eq_zero {m : ℤ} (hm : 2 * c.fc.val / c.fs.val = m) (n : Nat) : carrierSin c n = 0 := by
  have harg : 2 * Real.pi * c.fc.val * (n / c.fs.val) = ((m * n : ℤ) : ℝ) * Real.pi := by
    push_cast
    rw [← hm]
    ring
  rw [carrierSin, harg, Real.sin_int_mul_pi]

theorem valAt_bpskModulate_of_silent (h : ∀ n, carrierSin c n = 0) (b : List Bit) (n : Nat) :
    valAt (bpskModulate c b) n = 0 :=
  valAt_modulateFrom_of_forall (P := (· = 0)) rfl (fun b n => by rw [bpskSample_val, h, mul_zero]) b n

theorem windowCorr_of_silent (h : ∀ n, carrierSin c n = 0) (x : List XReal) (j : Nat) :
    windowCorr c x j carrierSin = 0 := by
  simp [windowCorr, h]

theorem bitAt_bpskDemodulate_of_silent (h : ∀ n, carrierSin c n = 0) (x : List XReal) (j : Nat) :
    bitAt (bpskDemodulate c x) j = false := by
  refine Bool.eq_false_iff.mpr fun hbit => ?_
  have hj : j < x.length / c.ns := by simpa using lt_length_of_bitAt hbit
  rw [bitAt_bpskDemodulate hj, windowCorr_of_silent h] at hbit
  exact lt_irrefl _ hbit

theorem bitAt_qpskDemodulate_of_silent (h : ∀ n, carrierSin c n = 0) (x : List XReal) (j : Nat) :
    bitAt (qpskDemodulate c x) (2 * j + 1) = false := by
  refine Bool.eq_false_iff.mpr fun hbit => ?_
  have hlt := lt_length_of_bitAt hbit
  rw [qpskDemodulate_length] at hlt
  have hj : j < x.length / c.ns := by omega
  rw [(bitAt_qpskDemodulate hj).2, windowCorr_of_silent h] at hbit
  exact lt_irrefl _ hbit

/-- Settles O42: a silent carrier gives the modulator zeros, and every correlation with it is 0. -/
theorem integerHalfRatioSilencesCarrier : Obligations.IntegerHalfRatioSilencesCarrier := by
  intro s c m hc _ hm hmax
  have hfit := State.tooLong_eq_false_of_none hmax
  have hsilent : ∀ n, carrierSin c n = 0 := carrierSin_eq_zero hm
  refine ⟨hsilent, fun b ho => ?_, fun x ho => ⟨?_, ?_⟩⟩
  · refine ⟨_, _, exec_bpskMod_eq_complete ho hc (hfit _) (hfit _), rfl, fun n => ?_⟩
    rw [valAt_map_norm, valAt_bpskModulate_of_silent hsilent]
  · exact ⟨_, _, exec_bpskDem_eq_complete ho hc (hfit _), rfl, bitAt_bpskDemodulate_of_silent hsilent x⟩
  · exact ⟨_, _, exec_qpskDem_eq_complete ho hc (hfit _) (hfit _), rfl, bitAt_qpskDemodulate_of_silent hsilent x⟩

end Sys2Proof.Machine
end

section
/-! The channel model (43_awgn.md): what one sample of the AWGN commands comes to over the real numbers, the noise power
it is scaled by, and how far each command moves the noise source. -/
namespace Sys2Proof.Machine

variable {s t : State} {c : Cfg}

/-! ### The noise power (R172) -/

theorem noisePowerOf_nonneg (c : Cfg) {p : ℝ} (hp : 0 ≤ p) : 0 ≤ noisePowerOf c p :=
  div_nonneg hp (Real.rpow_nonneg (by norm_num) _)

theorem noisePowerOf_eq_zero_iff (c : Cfg) (p : ℝ) : noisePowerOf c p = 0 ↔ p = 0 := by
  have hpow : (10 : ℝ) ^ (c.snrDb.val / 10) ≠ 0 := (Real.rpow_pos_of_pos (by norm_num) _).ne'
  rw [noisePowerOf, div_eq_zero_iff, or_iff_left hpow]

/-- R171 and R172 for AWGN_R. -/
theorem noisePower_real_val (c : Cfg) (x : List XReal) :
    (noisePower c (meanOf (x.map realPower))).val = noisePowerOf c (signalPower x) := by
  rw [noisePower_val, meanOf_realPower_val]

/-- R171 and R172 for AWGN_C. -/
theorem noisePower_cplx_val (c : Cfg) (z : List Cplx) :
    (noisePower c (meanOf (z.map cplxPower))).val = noisePowerOf c (signalPowerCplx z) := by
  rw [noisePower_val, meanOf_cplxPower_val]

/-- Settles O45: the power of 10 is positive, so it changes neither the sign of the signal power nor where it is 0. -/
theorem noisePowerFollowsSignalPower : Obligations.NoisePowerFollowsSignalPower := by
  intro c x z _ _
  rw [noisePower_real_val, noisePower_cplx_val]
  exact ⟨⟨rfl, noisePowerOf_nonneg c (signalPower_nonneg x), noisePowerOf_eq_zero_iff c _⟩,
    ⟨rfl, noisePowerOf_nonneg c (signalPowerCplx_nonneg z), noisePowerOf_eq_zero_iff c _⟩⟩

/-! ### One sample with its noise -/

/-- R170: a draw is a value of the noise oracle. -/
theorem valAt_draws (s : State) {k n : Nat} (hn : n < k) :
    valAt (s.draws k) n = Config.noise s.noiseSeed (s.drawsTaken + n) := by
  rw [valAt_of_getElem? (draws_getElem? s k n hn), XReal.val]

theorem valAt_of_length_le {x : List XReal} {n : Nat} (h : x.length ≤ n) : valAt x n = 0 := by
  simp [valAt, h]

/-- R173. Past the end of the operand both sides are 0. -/
theorem valAt_awgnReal {x g : List XReal} (hg : g.length = x.length) (n : Nat) :
    valAt (awgnReal c x g) n = valAt x n + √(noisePowerOf c (signalPower x)) * valAt g n := by
  rcases lt_or_ge n x.length with hn | hn
  · have hng : n < g.length := hg ▸ hn
    rw [← noisePower_real_val]
    simp [valAt, awgnReal, hn, hng]
  · rw [valAt_of_length_le hn, valAt_of_length_le (hg.trans_le hn),
      valAt_of_length_le ((awgnReal_length c x g hg).trans_le hn), mul_zero, add_zero]

/-- R174. -/
theorem cplxAt_awgnCplx {z : List Cplx} {g h : List XReal} {n : Nat} (hg : g.length = z.length)
    (hh : h.length = z.length) (hn : n < z.length) :
    (cplxAt (awgnCplx c z g h) n).re.val =
        (cplxAt z n).re.val + √(noisePowerOf c (signalPowerCplx z) / 2) * valAt g n ∧
      (cplxAt (awgnCplx c z g h) n).im.val =
        (cplxAt z n).im.val + √(noisePowerOf c (signalPowerCplx z) / 2) * valAt h n := by
  have hng : n < g.length := hg ▸ hn
  have hnh : n < h.length := hh ▸ hn
  rw [← noisePower_cplx_val]
  simp [cplxAt, valAt, awgnCplx, hn, hng, hnh]

/-- Delivery changes no value. -/
theorem cplxAt_map_norm (z : List Cplx) (n : Nat) : cplxAt (z.map Cplx.norm) n = (cplxAt z n).norm :=
  List.getD_map (f := Cplx.norm) (l := z) (n := n) (d := ⟨.rat 0, .rat 0⟩)

@[simp] theorem Cplx.norm_re_val (z : Cplx) : z.norm.re.val = z.re.val := z.re.norm_val
@[simp] theorem Cplx.norm_im_val (z : Cplx) : z.norm.im.val = z.im.val := z.im.norm_val

/-! ### The two commands on a configured block -/

/-- AWGN_R's result is as long as its operand, so it is delivered wherever the operand is accepted (R7). -/
theorem exec_awgnR_eq_complete {x : List XReal} (ho : s.operands = [.reals x]) (hc : s.cfg = some c)
    (hl : s.tooLong x.length = false) :
    exec .awgnR s = .next ((s.takeDraws x.length).complete
      (some (.reals ((awgnReal c x (s.draws x.length)).map XReal.norm)))) := by
  rw [exec_awgnR_eq_deliver ho hl hc, deliverReals_of_fits (by simpa using hl)]

/-- AWGN_C's result is as long as its operand, so it is delivered wherever the operand is accepted (R7). -/
theorem exec_awgnC_eq_complete {z : List Cplx} (ho : s.operands = [.cplx z]) (hc : s.cfg = some c)
    (hl : s.tooLong z.length = false) :
    exec .awgnC s = .next ((s.takeDraws (2 * z.length)).complete
      (some (.cplx ((awgnCplx c z (s.draws z.length) ((s.takeDraws z.length).draws z.length)).map Cplx.norm)))) := by
  rw [exec_awgnC_eq_deliver ho hl hc, deliverCplx_of_fits (by simpa using hl)]

/-- Settles O43: the samples are those of `valAt_awgnReal`, with the draws of `valAt_draws`. -/
theorem awgnRResult : Obligations.AwgnRResult := by
  intro s x c ho hc hl
  refine ⟨_, _, exec_awgnR_eq_complete ho hc hl, rfl, .of_takeDraws s _ _, by simp, fun n hn => ?_⟩
  rw [valAt_map_norm, valAt_awgnReal (s.draws_length _), valAt_draws s hn]

/-- Settles O44: the samples are those of `cplxAt_awgnCplx`; the imaginary parts' draws come from the source after the
real parts' draws. -/
theorem awgnCResult : Obligations.AwgnCResult := by
  intro s z c ho hc hl
  refine ⟨_, _, exec_awgnC_eq_complete ho hc hl, rfl, .of_takeDraws s _ _, by simp, fun n hn => ?_⟩
  obtain ⟨hre, him⟩ := cplxAt_awgnCplx (c := c) (s.draws_length _) ((s.takeDraws z.length).draws_length _) hn
  rw [valAt_draws s hn] at hre
  rw [valAt_draws (s.takeDraws z.length) hn] at him
  rw [cplxAt_map_norm, Cplx.norm_re_val, Cplx.norm_im_val]
  exact ⟨hre, him⟩

theorem signalPower_eq_zero {x : List XReal} (hx : ∀ n, valAt x n = 0) : signalPower x = 0 := by
  simp [signalPower, hx]

/-- Settles O46: the signal power is 0, so the noise power is, and each draw is scaled by 0. -/
theorem awgnRKeepsZeroSignal : Obligations.AwgnRKeepsZeroSignal := by
  intro s x c ho hc hl hx
  refine ⟨_, _, exec_awgnR_eq_complete ho hc hl, rfl, by simp, rfl, fun n => ?_⟩
  have hN : noisePowerOf c (signalPower x) = 0 := (noisePowerOf_eq_zero_iff c _).mpr (signalPower_eq_zero hx)
  rw [valAt_map_norm, valAt_awgnReal (s.draws_length _), hx, hN, Real.sqrt_zero, zero_mul, add_zero]

/-! ### The noise source (R175, R177) -/

theorem Effect.noiseSeed_eq {i : Instr} (h : Effect i s t) : t.noiseSeed = s.noiseSeed := by
  cases h with
  | raises e _ _ _ ht => subst ht; rfl
  | configures _ r _ _ ht => subst ht; rfl
  | delivers _ r _ _ _ ht => subst ht; rfl

theorem Effect.drawsTaken_eq {i : Instr} (h : Effect i s t) :
    t.drawsTaken = s.drawsTaken + (if t.err = 0 then drawCount i s.operands else 0) := by
  cases h with
  | raises e he _ _ ht => subst ht; simp [he]
  | configures hi r _ _ ht => subst hi ht; rfl
  | delivers _ r _ _ _ ht => subst ht; rfl

/-- Settles O47, by the three ways in which a command goes on to a next state (`Effect`). -/
theorem drawAccounting : Obligations.DrawAccounting := fun _ _ _ h =>
  ⟨(exec_effect h).noiseSeed_eq, (exec_effect h).drawsTaken_eq⟩

theorem mem_draws_iff {a : XReal} {k : Nat} :
    a ∈ s.draws k ↔ ∃ n < k, XReal.draw s.noiseSeed (s.drawsTaken + n) = a := by
  simp [State.draws]

/-- R177: a source that has gone on past `j` draws gives none of them again. -/
theorem draws_disjoint_of_le {j : Nat} (h : s.drawsTaken + j ≤ t.drawsTaken) (k : Nat) :
    List.Disjoint (s.draws j) (t.draws k) := by
  intro a hs ht
  obtain ⟨m, hm, rfl⟩ := mem_draws_iff.mp hs
  obtain ⟨n, -, heq⟩ := mem_draws_iff.mp ht
  have hpos : t.drawsTaken + n = s.drawsTaken + m := (XReal.draw.inj heq).2
  omega

/-- Settles O48: a command that completes leaves the source past its own draws (`Effect.drawsTaken_eq`). -/
theorem laterDrawsAreFresh : Obligations.LaterDrawsAreFresh := by
  intro s t i k h herr
  have hcount := (exec_effect h).drawsTaken_eq
  rw [if_pos herr] at hcount
  exact draws_disjoint_of_le hcount.ge k

end Sys2Proof.Machine
end

section
/-! The reference host (47_host_sequence.md): the frame of construction, the BER meter, and RUN as a chain of issued
commands, each of which either stops the run or hands on a result of the length its length law gives. -/
namespace Sys2Proof.Machine

variable {s t : State} {c : Cfg}

/-! ### Construction (R64, R192) -/

@[simp] theorem schemeField_modeByte : ∀ scheme ecc, schemeField (modeByte scheme ecc) = scheme := by decide

@[simp] theorem eccField_modeByte : ∀ scheme ecc, eccField (modeByte scheme ecc) = ecc := by decide

@[simp] theorem reservedField_modeByte : ∀ scheme ecc, reservedField (modeByte scheme ecc) = 0 := by decide

/-- Settles O27: the fields of MODE give back the scheme and the flag it was packed from, so the record is legal and
CONFIGURE writes it. -/
theorem constructionWritesParameters : Obligations.ConstructionWritesParameters := by
  intro s rest scheme ecc fc fs tb snrDb hi hscheme hfc hfs htb hns
  have hlegal : cfgRecLegal ⟨modeByte scheme ecc, fc, fs, tb, snrDb⟩ = true :=
    (cfgRecLegal_iff _).mpr
      ⟨reservedField_modeByte scheme ecc, by rwa [schemeField_modeByte], hfc, hfs, htb, hns⟩
  have hfields : cfgOfRec ⟨modeByte scheme ecc, fc, fs, tb, snrDb⟩ = ⟨scheme, ecc, fc, fs, tb, snrDb⟩ := by
    simp [cfgOfRec]
  have hstep := (stepRunsDecodedCommand s _ rest _ hi (decode_encode .configure)).trans
    (exec_configure_of_legal rfl hlegal)
  exact ⟨_, hstep, congrArg some hfields, rfl, rfl, rfl⟩

/-! ### The BER meter (R191) -/

section
variable {a b : List Bit}

/-- The positions at which two sequences of one length differ. -/
def differingPositions (a b : List Bit) : List Nat :=
  (List.range a.length).filter fun n => bitAt a n != bitAt b n

theorem zipWith_bne_eq_map_range (h : a.length = b.length) :
    List.zipWith (· != ·) a b = (List.range a.length).map fun n => bitAt a n != bitAt b n := by
  apply List.ext_getElem
  · simp [h]
  · intro n hn _
    obtain ⟨ha, hb⟩ : n < a.length ∧ n < b.length := by simpa using hn
    simp [bitAt, ha, hb]

theorem count_zipWith_bne (h : a.length = b.length) :
    (List.zipWith (· != ·) a b).count true = (differingPositions a b).length := by
  rw [zipWith_bne_eq_map_range h, List.count, List.countP_map, List.countP_eq_length_filter]
  simp [differingPositions, Function.comp_def]

theorem differingPositions_length_le (a b : List Bit) : (differingPositions a b).length ≤ a.length := by
  simpa [differingPositions] using List.length_filter_le (fun n => bitAt a n != bitAt b n) (List.range a.length)

theorem differingPositions_length_eq_zero_iff (h : a.length = b.length) :
    (differingPositions a b).length = 0 ↔ a = b := by
  have hnil : (differingPositions a b).length = 0 ↔ ∀ n < a.length, bitAt a n = bitAt b n := by
    simp [differingPositions]
  exact hnil.trans ⟨eq_of_bitAt h, fun hab _ _ => by rw [hab]⟩

theorem differingPositions_length_eq_iff :
    (differingPositions a b).length = a.length ↔ ∀ n < a.length, bitAt a n ≠ bitAt b n := by
  have hall := List.length_filter_eq_length_iff (p := fun n => bitAt a n != bitAt b n) (l := List.range a.length)
  simpa [differingPositions] using hall

theorem computeBer_of_length_eq (h : a.length = b.length) (ha : a ≠ []) :
    computeBer a b = .value ((differingPositions a b).length / a.length) := by
  rw [computeBer, if_neg (not_not.mpr h), if_neg (mt List.length_eq_zero_iff.mp ha), count_zipWith_bne h]

end

/-- Settles O49: where the lengths agree and are not 0, the meter's value is the number of differing positions over
the length (`computeBer_of_length_eq`). -/
theorem berMeter : Obligations.BerMeter := by
  intro a b
  refine ⟨fun h => if_pos h, fun h ha => ?_, fun h ha => ?_⟩
  · subst ha
    obtain rfl : b = [] := List.length_eq_zero_iff.mp h.symm
    rfl
  · have hpos : (0 : ℚ) < a.length := by exact_mod_cast List.length_pos_iff.mpr ha
    have hle : ((differingPositions a b).length : ℚ) ≤ a.length := by
      exact_mod_cast differingPositions_length_le a b
    refine ⟨_, computeBer_of_length_eq h ha, by positivity, (div_le_one hpos).mpr hle,
      div_mul_cancel₀ _ hpos.ne', ?_, ?_⟩
    · rw [div_eq_zero_iff, or_iff_left hpos.ne', Nat.cast_eq_zero, differingPositions_length_eq_zero_iff h]
    · rw [div_eq_one_iff_eq hpos.ne', Nat.cast_inj, differingPositions_length_eq_iff]

/-! ### The bit source and the padding (R190, R195) -/

theorem generate_of_neg (source : Nat → Bit) {length : Int} (h : length < 0) :
    generate source length = .error .invalidArgument := if_pos h

theorem generate_of_nonneg (source : Nat → Bit) {length : Int} (h : 0 ≤ length) :
    generate source length = .ok ((List.range length.toNat).map source) := if_neg h.not_gt

theorem generate_length {source : Nat → Bit} {length : Int} {orig : List Bit} (h : generate source length = .ok orig) :
    (orig.length : ℤ) = length := by
  rcases lt_or_ge length 0 with hneg | hnonneg
  · simp [generate_of_neg source hneg] at h
  · obtain rfl := Except.ok.inj ((generate_of_nonneg source hnonneg).symm.trans h)
    simp [hnonneg]

theorem padToFour_length (b : List Bit) : (padToFour b).length = 4 * ((b.length + 3) / 4) := by
  simp only [padToFour, List.length_append, List.length_replicate]
  omega

theorem runOnce_of_error {source : Nat → Bit} {requested : Int} {e : ErrCode} (hc : s.cfg = some c)
    (h : generate source (adjustedLength c.scheme requested) = .error e) :
    runOnce s source requested = .aborted e.code [.configured] s := by
  simp only [runOnce, hc, h]

/-- Settles O52: the bit source refuses a negative length, which is the first thing a configured run asks of it. -/
theorem runRejectsNegativeLength : Obligations.RunRejectsNegativeLength :=
  fun _ _ source _ hc hneg => runOnce_of_error hc (generate_of_neg source hneg)

/-! ### An issued command (R198, R253) -/

/-- The state `t` is what the host goes on from after the command `i` completed without an error on the operand `o`. -/
structure Delivered (i : Instr) (o : Operand) (s t : State) : Prop where
  cfg : t.cfg = s.cfg
  maxSeqLen : t.maxSeqLen = s.maxSeqLen
  bits : i.resultKind = some .bitSeq → resultLength i s.cfg [o] = some t.replyBits.length
  reals : i.resultKind = some .realSeq → resultLength i s.cfg [o] = some t.replyReals.length

theorem Delivered.replyBits_eq_nil {i : Instr} {o : Operand} (h : Delivered i o s t)
    (hk : i.resultKind = some .bitSeq) (hn : resultLength i s.cfg [o] = some 0) : t.replyBits = [] :=
  List.length_eq_zero_iff.mp (Option.some.inj ((h.bits hk).symm.trans hn))

theorem Delivered.replyReals_eq_nil {i : Instr} {o : Operand} (h : Delivered i o s t)
    (hk : i.resultKind = some .realSeq) (hn : resultLength i s.cfg [o] = some 0) : t.replyReals = [] :=
  List.length_eq_zero_iff.mp (Option.some.inj ((h.reals hk).symm.trans hn))

theorem Effect.maxSeqLen_eq {i : Instr} (h : Effect i s t) : t.maxSeqLen = s.maxSeqLen := by
  cases h with
  | raises e _ _ _ ht => subst ht; rfl
  | configures _ r _ _ ht => subst ht; rfl
  | delivers _ r _ _ _ ht => subst ht; rfl

theorem Effect.err_ne_lengthMismatch {i : Instr} (h : Effect i s t) : t.err ≠ ErrCode.lengthMismatch.code := by
  cases h with
  | raises e _ he' _ ht => subst ht; exact fun hcode => he' (ErrCode.code_injective hcode)
  | configures _ r _ _ ht => subst ht; simp [ErrCode.code]
  | delivers _ r _ _ _ ht => subst ht; simp [ErrCode.code]

theorem replyBits_length_of_kind (h : t.reply.bind Reply.kind? = some .bitSeq) :
    t.reply.map Reply.length = some t.replyBits.length := by
  unfold State.replyBits
  cases hr : t.reply with
  | none => simp [hr] at h
  | some r =>
    cases r with
    | bits b => rfl
    | _ => simp [hr, Reply.kind?] at h

theorem replyReals_length_of_kind (h : t.reply.bind Reply.kind? = some .realSeq) :
    t.reply.map Reply.length = some t.replyReals.length := by
  unfold State.replyReals
  cases hr : t.reply with
  | none => simp [hr] at h
  | some r =>
    cases r with
    | reals x => rfl
    | _ => simp [hr, Reply.kind?] at h

theorem Delivered.of_exec {i : Instr} {o : Operand} {f : Frame} (hf : f.operands = [o]) (hi : i ≠ .configure)
    (h : exec i (s.accept f) = .next t) (herr : t.err = 0) : Delivered i o s t := by
  have hlen : t.reply.map Reply.length = resultLength i s.cfg [o] := by
    simpa [hf] using resultLengthFollowsLengthLaw _ t i h
  have hkind : t.reply.bind Reply.kind? = i.resultKind := (resultKindFollowsOpcode _ t i h).1 herr
  exact
    { cfg := (exec_effect h).cfg_eq hi
      maxSeqLen := (exec_effect h).maxSeqLen_eq
      bits := fun hk => hlen.symm.trans (replyBits_length_of_kind (hkind.trans hk))
      reals := fun hk => hlen.symm.trans (replyReals_length_of_kind (hkind.trans hk)) }

section
variable {i : Instr} {o : Operand} {phases : List RunPhase} {next : State → RunOutcome}

theorem step_of_issued (s : State) (i : Instr) (os : List Operand) :
    step { s with requests := .command ⟨encode i, os⟩ :: s.requests } = exec i (s.accept ⟨encode i, os⟩) :=
  stepRunsDecodedCommand _ _ s.requests i rfl (decode_encode i)

theorem issue_of_next (h : exec i (s.accept ⟨encode i, [o]⟩) = .next t) (herr : t.err = 0) :
    issue phases s ⟨encode i, [o]⟩ next = next t := by
  simp only [issue, step_of_issued, h, if_pos herr]

theorem issue_of_raised {e : ErrCode} (he : e ≠ .ok)
    (h : exec i (s.accept ⟨encode i, [o]⟩) = raised (s.accept ⟨encode i, [o]⟩) e) :
    issue phases s ⟨encode i, [o]⟩ next = .aborted e.code phases ((s.accept ⟨encode i, [o]⟩).raise e) := by
  simp [issue, step_of_issued, h, raised, he]

/-- With no length limit, a command whose length law gives a length completes, and the run goes on. -/
theorem exists_delivered {n : Nat} (hlim : s.maxSeqLen = none) (hi : i ≠ .configure)
    (hn : resultLength i s.cfg [o] = some n) :
    ∃ t, Delivered i o s t ∧ ∀ phases next, issue phases s ⟨encode i, [o]⟩ next = next t := by
  have hfits (m : Nat) : (s.accept ⟨encode i, [o]⟩).tooLong m = false := State.tooLong_eq_false_of_none hlim m
  have hk := (resultLength_eq_some_iff.mp hn).kind_eq
  obtain ⟨t, ht⟩ := exec_completes (s := s.accept ⟨encode i, [o]⟩) rfl hk (hfits _) fun m _ => hfits m
  have hlen : t.reply.map Reply.length = some n := (resultLengthFollowsLengthLaw _ t i ht).trans hn
  have herr : t.err = 0 := by
    by_contra hne
    simp [(exec_effect ht).reply_of_err_ne_zero hne] at hlen
  exact ⟨t, .of_exec rfl hi ht herr, fun _ _ => issue_of_next ht herr⟩

end

/-! ### MOD and DEM (R70) -/

/-- The command that MOD stands for. -/
def modInstr (scheme : BitVec 2) : Instr := if scheme = 0 then .bpskMod else .qpskMod

/-- The command that DEM stands for. -/
def demInstr (scheme : BitVec 2) : Instr := if scheme = 0 then .bpskDem else .qpskDem

theorem modInstr_ne_configure (scheme : BitVec 2) : modInstr scheme ≠ .configure := by unfold modInstr; split <;> decide

theorem demInstr_ne_configure (scheme : BitVec 2) : demInstr scheme ≠ .configure := by unfold demInstr; split <;> decide

@[simp] theorem modInstr_resultKind (scheme : BitVec 2) : (modInstr scheme).resultKind = some .realSeq := by
  unfold modInstr; split <;> rfl

@[simp] theorem demInstr_resultKind (scheme : BitVec 2) : (demInstr scheme).resultKind = some .bitSeq := by
  unfold demInstr; split <;> rfl

/-- R139 for MOD. -/
theorem resultLength_modInstr (scheme : BitVec 2) (c : Cfg) (b : List Bit) :
    resultLength (modInstr scheme) (some c) [.bits b] =
      if scheme = 0 then some (b.length * c.ns)
      else if b.length % 2 = 0 then some (b.length / 2 * c.ns) else none := by
  unfold modInstr
  split <;> rfl

/-- R139 for DEM. -/
theorem resultLength_demInstr (scheme : BitVec 2) (c : Cfg) (x : List XReal) :
    resultLength (demInstr scheme) (some c) [.reals x] =
      if scheme = 0 then some (x.length / c.ns) else some (2 * (x.length / c.ns)) := by
  unfold demInstr
  split <;> rfl

/-- R139: DEM gives back as many bits as MOD was given, where a window holds a sample. -/
theorem demodulated_length {scheme : BitVec 2} {tx : List Bit} {x : List XReal} {m : Nat} (hns : 1 ≤ c.ns)
    (hmod : resultLength (modInstr scheme) (some c) [.bits tx] = some x.length)
    (hdem : resultLength (demInstr scheme) (some c) [.reals x] = some m) : m = tx.length := by
  rw [resultLength_modInstr] at hmod
  rw [resultLength_demInstr] at hdem
  by_cases hscheme : scheme = 0
  · simp only [if_pos hscheme, Option.some.injEq] at hmod hdem
    rw [← hdem, ← hmod, Nat.mul_div_cancel _ hns]
  · simp only [if_neg hscheme, Option.ite_none_right_eq_some, Option.some.injEq] at hmod hdem
    obtain ⟨heven, hmod⟩ := hmod
    rw [← hdem, ← hmod, Nat.mul_div_cancel _ hns]
    omega

/-! ### What every run ends in (R194 to R200) -/

/-- The run does not abort with LengthMismatch, and where it completes, its result and its phases satisfy `P`. -/
def RunOutcome.Meets (P : SimResult → List RunPhase → Prop) : RunOutcome → Prop
  | .done r phases _ => P r phases
  | .aborted code _ _ => code ≠ ErrCode.lengthMismatch.code
  | .fault _ => True
  | .refused _ => True

theorem issue_meets {P : SimResult → List RunPhase → Prop} {i : Instr} {o : Operand} {phases : List RunPhase}
    {next : State → RunOutcome} (hi : i ≠ .configure) (hnext : ∀ t, Delivered i o s t → (next t).Meets P) :
    (issue phases s ⟨encode i, [o]⟩ next).Meets P := by
  simp only [issue, step_of_issued]
  cases h : exec i (s.accept ⟨encode i, [o]⟩) with
  | next t =>
    by_cases herr : t.err = 0
    · simpa only [if_pos herr] using hnext t (.of_exec rfl hi h herr)
    · simpa only [if_neg herr, RunOutcome.Meets] using (exec_effect h).err_ne_lengthMismatch
  | fault r => trivial
  | refused r => trivial

/-- A run that sent `orig` has scored it against a sequence of its length and has passed through `expected`. -/
structure Scored (orig : List Bit) (expected : List RunPhase) (r : SimResult) (phases : List RunPhase) : Prop where
  original : r.originalBits = orig
  recovered : r.recoveredBits.length = orig.length
  ber_nonneg : 0 ≤ r.ber
  ber_le_one : r.ber ≤ 1
  phases : phases = expected

/-- R197: truncation leaves the BER meter two sequences of one length. -/
theorem scoreRun_meets {orig decoded : List Bit} (hlen : orig.length ≤ decoded.length) (phases : List RunPhase)
    (wave rx : List XReal) (s : State) :
    (scoreRun phases orig wave rx decoded s).Meets (Scored orig (phases ++ [.scored])) := by
  have htake : orig.length = (decoded.take orig.length).length := by simp [hlen]
  obtain ⟨-, hempty, hvalue⟩ := berMeter orig (decoded.take orig.length)
  by_cases horig : orig = []
  · simp only [scoreRun, hempty htake horig]
    trivial
  · obtain ⟨q, hq, hq0, hq1, -, -⟩ := hvalue htake horig
    simp only [scoreRun, hq]
    exact ⟨rfl, htake.symm, hq0, hq1, rfl⟩

/-- R200: the states that steps 4 to 7 of RUN pass through. -/
def transmitPhases (ecc : Bool) : List RunPhase :=
  if ecc then [.modulated, .channelApplied, .demodulated, .decoded, .scored]
  else [.modulated, .channelApplied, .demodulated, .scored]

/-- R196: what is decoded from `tx` is long enough where `orig` fits what the coder makes of `tx`. -/
theorem transmitRun_meets {orig tx : List Bit} (hc : s.cfg = some c) (hns : 1 ≤ c.ns)
    (hlen : orig.length ≤ if c.eccEn then 4 * tx.length / 7 else tx.length) (phases : List RunPhase) :
    (transmitRun c phases orig tx s).Meets (Scored orig (phases ++ transmitPhases c.eccEn)) := by
  refine issue_meets (i := modInstr c.scheme) (o := .bits tx) (modInstr_ne_configure _) fun s1 h1 => ?_
  refine issue_meets (i := .awgnR) (o := .reals s1.replyReals) (by decide) fun s2 h2 => ?_
  refine issue_meets (i := demInstr c.scheme) (o := .reals s2.replyReals) (demInstr_ne_configure _) fun s3 h3 => ?_
  have hc1 : s1.cfg = some c := h1.cfg.trans hc
  have hc2 : s2.cfg = some c := h2.cfg.trans hc1
  have hwave := h1.reals (modInstr_resultKind _)
  have hrx : s1.replyReals.length = s2.replyReals.length := by simpa [resultLength, hc1] using h2.reals rfl
  have hdem := h3.bits (demInstr_resultKind _)
  rw [hc, hrx] at hwave
  rw [hc2] at hdem
  have htx : s3.replyBits.length = tx.length := demodulated_length hns hwave hdem
  cases hecc : c.eccEn with
  | false =>
    rw [hecc, ← htx] at hlen
    have hscore := scoreRun_meets hlen (phases ++ [.modulated] ++ [.channelApplied] ++ [.demodulated])
      s1.replyReals s2.replyReals s3
    simpa [transmitPhases] using hscore
  | true =>
    refine issue_meets (i := .hamDec) (o := .bits s3.replyBits) (by decide) fun s4 h4 => ?_
    obtain ⟨-, hdec⟩ : s3.replyBits.length % 7 = 0 ∧ 4 * s3.replyBits.length / 7 = s4.replyBits.length := by
      simpa [resultLength] using h4.bits rfl
    rw [htx] at hdec
    rw [hecc, if_pos rfl, hdec] at hlen
    have hscore := scoreRun_meets hlen (phases ++ [.modulated] ++ [.channelApplied] ++ [.demodulated] ++ [.decoded])
      s1.replyReals s2.replyReals s4
    simpa [transmitPhases] using hscore

/-- R200: the states that a whole run passes through. -/
def runPhases (ecc : Bool) : List RunPhase :=
  if ecc then [.configured, .generated, .encoded, .modulated, .channelApplied, .demodulated, .decoded, .scored]
  else [.configured, .generated, .modulated, .channelApplied, .demodulated, .scored]

theorem runOnce_meets {source : Nat → Bit} {requested : Int} {orig : List Bit} (hc : s.cfg = some c) (hns : 1 ≤ c.ns)
    (horig : generate source (adjustedLength c.scheme requested) = .ok orig) :
    (runOnce s source requested).Meets (Scored orig (runPhases c.eccEn)) := by
  simp only [runOnce, hc, horig]
  cases hecc : c.eccEn with
  | false =>
    have hrun := transmitRun_meets (orig := orig) (tx := orig) hc hns (by simp [hecc]) [.configured, .generated]
    rwa [hecc] at hrun
  | true =>
    refine issue_meets (by decide) fun s1 h1 => ?_
    obtain ⟨-, henc⟩ : (padToFour orig).length % 4 = 0 ∧ 7 * (padToFour orig).length / 4 = s1.replyBits.length := by
      simpa [resultLength] using h1.bits rfl
    have hlen : orig.length ≤ 4 * s1.replyBits.length / 7 := by
      rw [padToFour_length] at henc
      omega
    have hrun := transmitRun_meets (h1.cfg.trans hc) hns (by simpa [hecc] using hlen)
      [.configured, .generated, .encoded]
    rwa [hecc] at hrun

/-- Settles O50: the bit source gives a sequence of the adjusted length or aborts the run itself, and `runOnce_meets`
follows that sequence to its score. -/
theorem runScoresAdjustedLength : Obligations.RunScoresAdjustedLength := by
  intro s c source requested hinv hc
  cases horig : generate source (adjustedLength c.scheme requested) with
  | error e =>
    have hneg : adjustedLength c.scheme requested < 0 := by
      by_contra hnonneg
      simp [generate_of_nonneg source (not_lt.mp hnonneg)] at horig
    rw [runRejectsNegativeLength s c source requested hc hneg]
    exact ⟨fun _ _ h => absurd (RunOutcome.aborted.inj h).1 (by decide), fun _ _ _ h => nomatch h⟩
  | ok orig =>
    have hrun := runOnce_meets hc (hinv.cfgLegal c hc).ns horig
    refine ⟨fun phases t h => ?_, fun r phases t h => ?_⟩
    · rw [h] at hrun
      exact hrun rfl
    · rw [h] at hrun
      obtain ⟨horiginal, hrecovered, hber0, hber1, hphases⟩ := hrun
      subst horiginal
      exact ⟨generate_length horig, hrecovered, hber0, hber1, hphases⟩

/-! ### Consequences of the literal sequence (R201, R202) -/

theorem transmitRun_of_odd {tx : List Bit} (hc : s.cfg = some c) (hscheme : c.scheme = 1) (hlim : s.maxSeqLen = none)
    (hodd : tx.length % 2 ≠ 0) (phases : List RunPhase) (orig : List Bit) :
    ∃ t, transmitRun c phases orig tx s = .aborted ErrCode.invalidLength.code phases t ∧ t.sticky = true := by
  rw [transmitRun, hscheme]
  exact ⟨_, issue_of_raised (i := .qpskMod) (by decide)
    (exec_qpskMod_of_invalidLength rfl (State.tooLong_eq_false_of_none hlim _) hc hodd), rfl⟩

theorem adjustedLength_pos {scheme : BitVec 2} {requested : Int} (h : 0 < requested) :
    0 < adjustedLength scheme requested := by
  unfold adjustedLength
  split <;> omega

/-- Settles O51: HAM_ENC makes 7 bits of each of an odd number of blocks, and QPSK_MOD refuses their odd total. -/
theorem runAbortsOnOddCodeLength : Obligations.RunAbortsOnOddCodeLength := by
  intro s c source requested hc hscheme hecc hlim hpos hblocks
  have hgen := generate_of_nonneg source (adjustedLength_pos (scheme := 1) hpos).le
  have hlen := generate_length hgen
  generalize (List.range (adjustedLength 1 requested).toNat).map source = orig at hgen hlen
  have h4 : (padToFour orig).length % 4 = 0 := by rw [padToFour_length]; omega
  simp only [runOnce, hc, hscheme, hgen, hecc, if_true]
  have hn : resultLength .hamEnc s.cfg [.bits (padToFour orig)] = some (7 * (padToFour orig).length / 4) := if_pos h4
  obtain ⟨s1, h1, hissue⟩ := exists_delivered hlim (by decide) hn
  have henc : 7 * (padToFour orig).length / 4 = s1.replyBits.length := Option.some.inj (hn.symm.trans (h1.bits rfl))
  rw [hissue]
  have hodd : s1.replyBits.length % 2 ≠ 0 := by
    rw [padToFour_length] at henc
    omega
  exact ⟨_, transmitRun_of_odd (h1.cfg.trans hc) hscheme (h1.maxSeqLen.trans hlim) hodd _ orig⟩

theorem scoreRun_nil (phases : List RunPhase) (wave rx : List XReal) (decoded : List Bit) (s : State) :
    scoreRun phases [] wave rx decoded s = .fault .berUndefined := rfl

/-- With nothing to send, every command completes with nothing, up to the score. -/
theorem transmitRun_nil (hc : s.cfg = some c) (hlim : s.maxSeqLen = none) (phases : List RunPhase) :
    transmitRun c phases [] [] s = .fault .berUndefined := by
  have hmod : resultLength (modInstr c.scheme) s.cfg [.bits []] = some 0 := by simp [hc, resultLength_modInstr]
  obtain ⟨s1, h1, hissue1⟩ := exists_delivered hlim (modInstr_ne_configure _) hmod
  refine (hissue1 _ _).trans ?_
  have hc1 := h1.cfg.trans hc
  have hlim1 := h1.maxSeqLen.trans hlim
  have hwave : s1.replyReals = [] := h1.replyReals_eq_nil (modInstr_resultKind _) hmod
  have hchan : resultLength .awgnR s1.cfg [.reals s1.replyReals] = some 0 := by simp [resultLength, hc1, hwave]
  obtain ⟨s2, h2, hissue2⟩ := exists_delivered hlim1 (by decide) hchan
  refine (hissue2 _ _).trans ?_
  have hc2 := h2.cfg.trans hc1
  have hlim2 := h2.maxSeqLen.trans hlim1
  have hrx : s2.replyReals = [] := h2.replyReals_eq_nil rfl hchan
  have hdem : resultLength (demInstr c.scheme) s2.cfg [.reals s2.replyReals] = some 0 := by
    simp [hc2, hrx, resultLength_demInstr]
  obtain ⟨s3, h3, hissue3⟩ := exists_delivered hlim2 (demInstr_ne_configure _) hdem
  refine (hissue3 _ _).trans ?_
  have hlim3 := h3.maxSeqLen.trans hlim2
  have hbits : s3.replyBits = [] := h3.replyBits_eq_nil (demInstr_resultKind _) hdem
  cases hecc : c.eccEn with
  | false => rfl
  | true =>
    have hdec : resultLength .hamDec s3.cfg [.bits s3.replyBits] = some 0 := by simp [resultLength, hbits]
    obtain ⟨s4, -, hissue4⟩ := exists_delivered hlim3 (by decide) hdec
    exact hissue4 _ _

/-- Settles O53: a run of length 0 sends nothing, with or without error correction. -/
theorem runZeroIsUndefined : Obligations.RunZeroIsUndefined := by
  intro s c source hc hlim
  have hgen : generate source (adjustedLength c.scheme 0) = .ok [] := by simp [adjustedLength, generate]
  simp only [runOnce, hc, hgen]
  cases hecc : c.eccEn with
  | false => exact transmitRun_nil hc hlim _
  | true =>
    have henc : resultLength .hamEnc s.cfg [.bits (padToFour [])] = some 0 := rfl
    obtain ⟨s1, h1, hissue⟩ := exists_delivered hlim (by decide) henc
    refine (hissue _ _).trans ?_
    rw [h1.replyBits_eq_nil rfl henc]
    exact transmitRun_nil (h1.cfg.trans hc) (h1.maxSeqLen.trans hlim) _

end Sys2Proof.Machine
end

section
/-! The errors of the block (60_exceptions.md): what a failed command changes, what sets CFGD, and the cause of each
code. A frame alone decides, with CFG, which code its command ends with if it ends (`Cause`), so the causes exclude
each other because a state holds one code. -/
namespace Sys2Proof.Machine

variable {s t : State} {f : Frame} {rest : List Request}

/-- Settles O5, by `step_of_nil`: the step's branch for no request. -/
theorem idleStepKeepsState : Obligations.IdleStepKeepsState := fun _ => step_of_nil

/-! ### The effects of an error (R222) -/

theorem Effect.exists_raise {i : Instr} (h : Effect i s t) (herr : t.err ≠ 0) : ∃ e, e ≠ .ok ∧ t = s.raise e := by
  cases h with
  | raises e he _ _ ht => exact ⟨e, he, ht⟩
  | configures _ r _ _ ht => subst ht; exact absurd rfl herr
  | delivers _ r _ _ _ ht => subst ht; exact absurd rfl herr

/-- Settles O10: a command that ends with a code other than 0 has raised it, whether its word decodes or not. -/
theorem failedCommandHasOnlyErrorEffects : Obligations.FailedCommandHasOnlyErrorEffects := by
  intro s f rest t hi h herr
  rcases step_command_cases hi h with ⟨i, -, hf⟩ | ⟨-, -, rfl⟩
  · obtain ⟨e, he, rfl⟩ := hf.exists_raise herr
    exact ⟨e, he, .of_accept_raise _ f e⟩
  · exact ⟨.illegalCommand, by decide, .of_accept_raise _ f _⟩

/-! ### NotConfigured (R82, R232) -/

theorem step_reset_cfg (hr : s.requests = .reset :: rest) (h : step s = .next t) : t.cfg = none := by
  rw [step_of_cons hr] at h
  cases h
  rfl

theorem step_commandThenReset_cfg (hr : s.requests = .commandThenReset f :: rest) (h : step s = .next t) :
    t.cfg = none := by
  rw [step_of_cons hr] at h
  cases h
  rfl

/-- Settles O8: the six commands raise by `exec_of_unconfigured`. Of the requests that can change CFG
(`onlyConfigureAndResetChangeCfg`), a reset leaves it unset and a CONFIGURE that fails leaves it as it was. -/
theorem notConfiguredBeforeLengthCheck : Obligations.NotConfiguredBeforeLengthCheck := by
  constructor
  · intro s i o hr hc ho hk hl
    exact ⟨_, exec_of_unconfigured hr hc ho hk hl, .of_raise s _⟩
  · intro s t hc h hset
    rcases onlyConfigureAndResetChangeCfg s t h (hc ▸ hset) with ⟨rest, hr | ⟨f, hr⟩ | ⟨f, hi, hop⟩⟩
    · exact absurd (step_reset_cfg hr h) hset
    · exact absurd (step_commandThenReset_cfg hr h) hset
    · refine ⟨f, rest, hi, hop, ?_⟩
      by_contra herr
      obtain ⟨e, -, hframe⟩ := failedCommandHasOnlyErrorEffects s f rest t hi h herr
      exact hset (hframe.cfg.trans hc)

/-! ### A BITSEQ of a wrong length (R105, R106, R136) -/

/-- The three commands that check the length of their BITSEQ, with a length that they reject. QPSK_MOD checks it once
it has found CFG set (R223). -/
inductive InvalidLength (cfg : Option Cfg) (b : List Bit) : Instr → Prop where
  | hamEnc (h4 : b.length % 4 ≠ 0) : InvalidLength cfg b .hamEnc
  | hamDec (h7 : b.length % 7 ≠ 0) : InvalidLength cfg b .hamDec
  | qpskMod {c : Cfg} (hc : cfg = some c) (h2 : b.length % 2 ≠ 0) : InvalidLength cfg b .qpskMod

theorem InvalidLength.kind_eq {cfg : Option Cfg} {b : List Bit} {i : Instr} (h : InvalidLength cfg b i) :
    (Operand.bits b).kind = i.operandKind := by
  cases h <;> rfl

theorem InvalidLength.ne_configure {cfg : Option Cfg} {b : List Bit} {i : Instr} (h : InvalidLength cfg b i) :
    i ≠ .configure := by
  rintro rfl
  cases h

theorem LengthLaw.ne_configure {cfg : Option Cfg} {i : Instr} {o : Operand} {n : Nat} (law : LengthLaw cfg i o n) :
    i ≠ .configure := by
  rintro rfl
  cases law

theorem exec_of_invalidLength {b : List Bit} {i : Instr} (ho : s.operands = [.bits b])
    (hl : s.tooLong b.length = false) (h : InvalidLength s.cfg b i) : exec i s = raised s .invalidLength := by
  cases h with
  | hamEnc h4 => exact exec_hamEnc_of_invalidLength ho hl h4
  | hamDec h7 => exact exec_hamDec_of_invalidLength ho hl h7
  | qpskMod hc h2 => exact exec_qpskMod_of_invalidLength ho hl hc h2

/-- A data command past step 3 of the command cycle has a length law for its operand or rejects the operand's length. -/
theorem lengthLaw_or_invalidLength {cfg : Option Cfg} : ∀ {i : Instr} {o : Operand}, i ≠ .configure →
    (readsCfg i = true → ∃ c, cfg = some c) → o.kind = i.operandKind →
    (∃ n, LengthLaw cfg i o n) ∨ ∃ b, o = .bits b ∧ InvalidLength cfg b i
  | .hamEnc, .bits b, _, _, _ =>
    if h4 : b.length % 4 = 0 then .inl ⟨_, .hamEnc h4⟩ else .inr ⟨b, rfl, .hamEnc h4⟩
  | .hamDec, .bits b, _, _, _ =>
    if h7 : b.length % 7 = 0 then .inl ⟨_, .hamDec h7⟩ else .inr ⟨b, rfl, .hamDec h7⟩
  | .qpskMod, .bits b, _, hc, _ => (hc rfl).elim fun _ hc =>
    if h2 : b.length % 2 = 0 then .inl ⟨_, .qpskMod hc h2⟩ else .inr ⟨b, rfl, .qpskMod hc h2⟩
  | .bpskMod, .bits _, _, hc, _ => .inl ((hc rfl).elim fun _ hc => ⟨_, .bpskMod hc⟩)
  | .bpskDem, .reals _, _, hc, _ => .inl ((hc rfl).elim fun _ hc => ⟨_, .bpskDem hc⟩)
  | .qpskDem, .reals _, _, hc, _ => .inl ((hc rfl).elim fun _ hc => ⟨_, .qpskDem hc⟩)
  | .awgnR, .reals _, _, hc, _ => .inl ((hc rfl).elim fun _ hc => ⟨_, .awgnR hc⟩)
  | .awgnC, .cplx _, _, hc, _ => .inl ((hc rfl).elim fun _ hc => ⟨_, .awgnC hc⟩)

/-! ### The cause of each code (R221, R223) -/

/-- Why a frame's command ends with a code, if it ends: the causes of the four errors, and the two ways in which a
command succeeds. -/
inductive Cause (cfg : Option Cfg) (f : Frame) : ErrCode → Prop where
  | illegalCommand (hbad : ∀ i, decode f.op = .ok i → i.operandsFit f.operands = false) : Cause cfg f .illegalCommand
  | notConfigured {i : Instr} (hd : decode f.op = .ok i) (hfit : i.operandsFit f.operands = true)
      (hr : readsCfg i = true) (hc : cfg = none) : Cause cfg f .notConfigured
  | invalidArgument {r : CfgRec} (hd : decode f.op = .ok .configure) (ho : f.operands = [.cfg r])
      (hr : ¬ LegalRecord r) : Cause cfg f .invalidArgument
  | invalidLength {i : Instr} {b : List Bit} (hd : decode f.op = .ok i) (ho : f.operands = [.bits b])
      (hb : InvalidLength cfg b i) : Cause cfg f .invalidLength
  | configures {r : CfgRec} (hd : decode f.op = .ok .configure) (ho : f.operands = [.cfg r])
      (hr : LegalRecord r) : Cause cfg f .ok
  | delivers {i : Instr} {o : Operand} {n : Nat} (hd : decode f.op = .ok i) (ho : f.operands = [o])
      (law : LengthLaw cfg i o n) : Cause cfg f .ok

/-- By the checks of R223: the word and the frame's shape first; then CONFIGURE's check of its record, or a data
command's check of CFG before that of the length. -/
theorem exists_cause (cfg : Option Cfg) (f : Frame) : ∃ e, Cause cfg f e := by
  by_cases hbad : ∀ i, decode f.op = .ok i → i.operandsFit f.operands = false
  · exact ⟨_, .illegalCommand hbad⟩
  · push Not at hbad
    obtain ⟨i, hd, hfit⟩ := hbad
    have hfit : i.operandsFit f.operands = true := by simpa using hfit
    obtain ⟨o, ho, hk⟩ := operandsFit_iff.mp hfit
    by_cases hconf : i = .configure
    · subst hconf
      cases o with
      | cfg r =>
        by_cases hr : LegalRecord r
        · exact ⟨_, .configures hd ho hr⟩
        · exact ⟨_, .invalidArgument hd ho hr⟩
      | bits b => cases hk
      | reals x => cases hk
      | cplx z => cases hk
    · by_cases hu : readsCfg i = true ∧ cfg = none
      · obtain ⟨hr, hc⟩ := hu
        exact ⟨_, .notConfigured hd hfit hr hc⟩
      · have hc : readsCfg i = true → ∃ c, cfg = some c :=
          fun hr => Option.ne_none_iff_exists'.mp fun hn => hu ⟨hr, hn⟩
        rcases lengthLaw_or_invalidLength hconf hc hk with ⟨n, law⟩ | ⟨b, rfl, hb⟩
        · exact ⟨_, .delivers hd ho law⟩
        · exact ⟨_, .invalidLength hd ho hb⟩

theorem err_of_raised {e : ErrCode} (h : raised s e = .next t) : t.err = e.code := by
  cases h
  rfl

/-- R222: a result is delivered without an error only. -/
theorem err_of_lengthLaw {i : Instr} {o : Operand} {n : Nat} (ho : s.operands = [o]) (law : LengthLaw s.cfg i o n)
    (h : exec i s = .next t) : t.err = 0 := by
  have hl := operand_fits_of_exec_next law.ne_configure ho law.kind_eq h
  have hreply := exec_reply_length_of_lengthLaw ho hl law h
  by_contra herr
  simp [(exec_effect h).reply_of_err_ne_zero herr] at hreply

/-- The command runs with the frame's operands and the configuration the block holds, which is all the cause is
about. -/
theorem Cause.err_of_exec {e : ErrCode} {i : Instr} (cause : Cause s.cfg f e) (hs : s.operands = f.operands)
    (hi : decode f.op = .ok i) (h : exec i s = .next t) : t.err = e.code := by
  have same {j : Instr} (hd : decode f.op = .ok j) : exec j s = .next t := Except.ok.inj (hi.symm.trans hd) ▸ h
  cases cause with
  | illegalCommand hbad => exact err_of_raised (exec_of_malformed (hs ▸ hbad i hi) ▸ h)
  | notConfigured hd hfit hr hc =>
    obtain ⟨o, ho, hk⟩ := operandsFit_iff.mp (hs ▸ hfit)
    have hl := operand_fits_of_exec_next (by rintro rfl; cases hr) ho hk (same hd)
    exact err_of_raised (exec_of_unconfigured hr hc ho hk hl ▸ same hd)
  | invalidArgument hd ho hr =>
    have hrec := mt (cfgRecLegal_iff_legalRecord _).mp hr
    exact err_of_raised (exec_configure_of_illegal (hs.trans ho) hrec ▸ same hd)
  | invalidLength hd ho hb =>
    have hl := operand_fits_of_exec_next hb.ne_configure (hs.trans ho) hb.kind_eq (same hd)
    exact err_of_raised (exec_of_invalidLength (hs.trans ho) hl hb ▸ same hd)
  | configures hd ho hr =>
    have hrec := (cfgRecLegal_iff_legalRecord _).mpr hr
    cases (exec_configure_of_legal (hs.trans ho) hrec).symm.trans (same hd)
    rfl
  | delivers hd ho law => exact err_of_lengthLaw (hs.trans ho) law (same hd)

theorem Cause.err_of_step {e : ErrCode} (cause : Cause s.cfg f e) (hi : s.issues f rest) (h : step s = .next t) :
    t.err = e.code := by
  rw [step_of_issues hi] at h
  cases hd : decode f.op with
  | ok i =>
    rw [serveCommand_of_ok hd] at h
    exact Cause.err_of_exec (s := { s with requests := rest }.accept f) cause rfl hd h
  | error r =>
    rw [serveCommand_of_reserved hd] at h
    cases cause with
    | illegalCommand => exact err_of_raised h
    | notConfigured hd' | invalidArgument hd' | invalidLength hd' | configures hd' | delivers hd' =>
      cases hd.symm.trans hd'

/-- A served frame ends with the code of its cause, and it has one, so the code determines the cause. -/
theorem step_err_eq_code_iff {e : ErrCode} (hi : s.issues f rest) (h : step s = .next t) :
    t.err = e.code ↔ Cause s.cfg f e := by
  refine ⟨fun herr => ?_, fun cause => cause.err_of_step hi h⟩
  obtain ⟨e', cause⟩ := exists_cause s.cfg f
  have hcode : e.code = e'.code := herr.symm.trans (cause.err_of_step hi h)
  exact ErrCode.code_injective hcode ▸ cause

/-! ### The four causes, written out -/

section
variable {cfg : Option Cfg}

theorem cause_illegalCommand_iff :
    Cause cfg f .illegalCommand ↔ ∀ i, decode f.op = .ok i → i.operandsFit f.operands = false :=
  ⟨fun | .illegalCommand hbad => hbad, .illegalCommand⟩

theorem cause_notConfigured_iff : Cause cfg f .notConfigured ↔
    ∃ i, decode f.op = .ok i ∧ i.operandsFit f.operands = true ∧ readsCfg i = true ∧ cfg = none :=
  ⟨fun | .notConfigured hd hfit hr hc => ⟨_, hd, hfit, hr, hc⟩,
    fun ⟨_, hd, hfit, hr, hc⟩ => .notConfigured hd hfit hr hc⟩

theorem cause_invalidArgument_iff : Cause cfg f .invalidArgument ↔
    ∃ r, decode f.op = .ok .configure ∧ f.operands = [.cfg r] ∧ ¬ LegalRecord r :=
  ⟨fun | .invalidArgument hd ho hr => ⟨_, hd, ho, hr⟩, fun ⟨_, hd, ho, hr⟩ => .invalidArgument hd ho hr⟩

theorem cause_invalidLength_iff : Cause cfg f .invalidLength ↔ ∃ b, f.operands = [.bits b] ∧
    ((decode f.op = .ok .hamEnc ∧ b.length % 4 ≠ 0) ∨ (decode f.op = .ok .hamDec ∧ b.length % 7 ≠ 0) ∨
      (decode f.op = .ok .qpskMod ∧ cfg ≠ none ∧ b.length % 2 ≠ 0)) := by
  constructor
  · rintro (_ | _ | _ | ⟨hd, ho, hb⟩)
    cases hb with
    | hamEnc h4 => exact ⟨_, ho, .inl ⟨hd, h4⟩⟩
    | hamDec h7 => exact ⟨_, ho, .inr (.inl ⟨hd, h7⟩)⟩
    | qpskMod hc h2 => exact ⟨_, ho, .inr (.inr ⟨hd, Option.ne_none_iff_exists'.mpr ⟨_, hc⟩, h2⟩)⟩
  · rintro ⟨b, ho, ⟨hd, h4⟩ | ⟨hd, h7⟩ | ⟨hd, hc, h2⟩⟩
    · exact .invalidLength hd ho (.hamEnc h4)
    · exact .invalidLength hd ho (.hamDec h7)
    · obtain ⟨c, hc⟩ := Option.ne_none_iff_exists'.mp hc
      exact .invalidLength hd ho (.qpskMod hc h2)

end

/-- Settles O11: each code is written exactly for its cause (`step_err_eq_code_iff`). -/
theorem errorCodeTellsItsCause : Obligations.ErrorCodeTellsItsCause := by
  intro s f rest t hi h
  exact ⟨(step_err_eq_code_iff hi h).trans cause_illegalCommand_iff,
    (step_err_eq_code_iff hi h).trans cause_notConfigured_iff,
    (step_err_eq_code_iff hi h).trans cause_invalidArgument_iff,
    (step_err_eq_code_iff hi h).trans cause_invalidLength_iff⟩

end Sys2Proof.Machine
end

section
/-! Reset and the end of every command (70_reset_and_hazards.md): both kinds of reset have one effect, and without a
length limit nothing keeps a command from its end. -/
namespace Sys2Proof.Machine

variable {s t : State} {f : Frame} {rest : List Request}

/-! ### Reset (R250) -/

/-- The command in execution leaves no trace: acceptance writes only what the reset then overwrites. -/
theorem State.assertReset_accept (s : State) (f : Frame) : (s.accept f).assertReset = s.assertReset := rfl

theorem step_of_reset (h : s.requests = .reset :: rest ∨ s.requests = .commandThenReset f :: rest) :
    step s = .next { s with requests := rest }.assertReset := by
  rcases h with h | h
  · exact step_of_cons h
  · exact (step_of_cons h).trans (congrArg _ (State.assertReset_accept _ f))

/-- Settles O16: `step_of_reset` gives the state, and the laws of `State.assertReset` its fields. -/
theorem resetSetsStateAndDiscardsCommand : Obligations.ResetSetsStateAndDiscardsCommand :=
  fun _ _ _ h => ⟨_, step_of_reset h, State.assertReset_cfg _, State.assertReset_status _,
    State.assertReset_current _, State.assertReset_reply _, State.assertReset_maxSeqLen _,
    State.assertReset_requests _⟩

/-! ### Every command completes (R257) -/

theorem exec_completes_of_unlimited (i : Instr) (h : s.maxSeqLen = none) : Completes (exec i s) := by
  have hfits (n : Nat) : ¬ s.tooLong n = true := by simp [State.tooLong_eq_false_of_none h n]
  rcases exec_cases i s with hc | ⟨o, -, -, ⟨hl, -⟩ | ⟨-, n, -, hn, -⟩⟩
  · exact hc
  · exact absurd hl (hfits o.length)
  · exact absurd hn (hfits n)

theorem step_completes_of_unlimited (h : s.maxSeqLen = none) (hi : s.issues f rest) : Completes (step s) := by
  rw [step_of_issues hi]
  cases hd : decode f.op with
  | ok i => exact serveCommand_of_ok hd ▸ exec_completes_of_unlimited i h
  | error e => exact serveCommand_of_reserved hd ▸ Completes.of_raised _

theorem Effect.idle {i : Instr} (h : Effect i s t) : t.current = none := by
  cases h with
  | raises e _ _ _ ht => subst ht; rfl
  | configures _ r _ _ ht => subst ht; rfl
  | delivers _ r _ _ _ ht => subst ht; rfl

theorem Effect.requests_eq {i : Instr} (h : Effect i s t) : t.requests = s.requests := by
  cases h with
  | raises e _ _ _ ht => subst ht; rfl
  | configures _ r _ _ ht => subst ht; rfl
  | delivers _ r _ _ _ ht => subst ht; rfl

/-- A served frame is over (R45, R47): the block is idle again and the host's next request is at the head. -/
theorem step_command_served (hi : s.issues f rest) (h : step s = .next t) :
    t.current = none ∧ t.requests = rest := by
  rcases step_command_cases hi h with ⟨i, -, hf⟩ | ⟨e, -, rfl⟩
  · exact ⟨hf.idle, hf.requests_eq⟩
  · exact ⟨rfl, rfl⟩

/-- Settles O20: the length limit is all that stops a command (`exec_cases`), and a step that is not stopped has served
its frame. -/
theorem everyCommandCompletes : Obligations.EveryCommandCompletes := by
  intro s f rest hlim hi
  obtain ⟨t, ht⟩ := step_completes_of_unlimited hlim hi
  exact ⟨t, ht, step_command_served hi ht⟩

end Sys2Proof.Machine
end
